-- ==== Sys2Proof/Word.lean ====
section
/-! DEFINITION. The machine's one data type, the Word, and the parameter that bounds it.

A Word is a signed integer (`00_scope.md` R6), so its type is `Int` and not a bit vector: no instruction shifts,
masks or narrows a Word, and its bit pattern is not architectural (`00_scope.md` section 5). The range a Word keeps to
is `WordBits.inWord` of `Machine/Range.lean`, checked wherever the spec checks it. -/

namespace Sys2Proof

/-- The parameter `WORD_BITS` of R6 and R8: a number of bits, or the symbol `inf`. The spec admits 55 bits or more
(`WordBits.legal`). -/
inductive WordBits where
  | bits (w : Nat)
  | inf
  deriving DecidableEq, Repr

end Sys2Proof
end

