-- ==== Sys2Proof/Machine/Range.lean ====
section
/-! DEFINITION. The range of a Word for a given `WORD_BITS` (`00_scope.md` R6): `WMIN`, `WMAX`, `inWord`. -/

namespace Sys2Proof

/-- The widths the spec admits: `W >= 55`, or `inf` (R6). -/
def WordBits.legal : WordBits → Bool
  | .bits w => decide (55 ≤ w)
  | .inf => true

/-- `WMIN = -2^(W-1)`; `none` stands for minus infinity (R6). -/
def WordBits.wmin : WordBits → Option Int
  | .bits w => some (-((2 ^ (w - 1) : Nat) : Int))
  | .inf => none

/-- `WMAX = 2^(W-1) - 1`; `none` stands for plus infinity (R6). -/
def WordBits.wmax : WordBits → Option Int
  | .bits w => some (((2 ^ (w - 1) : Nat) : Int) - 1)
  | .inf => none

/-- `v < WMIN`. -/
def WordBits.belowMin (w : WordBits) (v : Int) : Bool :=
  match w.wmin with
  | some m => decide (v < m)
  | none => false

/-- `v > WMAX`. -/
def WordBits.aboveMax (w : WordBits) (v : Int) : Bool :=
  match w.wmax with
  | some m => decide (m < v)
  | none => false

/-- `inWord(v)`: `WMIN <= v <= WMAX` (R6, `00_scope.md` section 5). -/
def WordBits.inWord (w : WordBits) (v : Int) : Bool :=
  !w.belowMin v && !w.aboveMax v

end Sys2Proof
end

