-- ==== Sys2Proof/Syntax.lean ====
section
/-! DEFINITION. The instructions, one constructor per row of `spec/opcode_table.json`, their parameters, and the
names of the seven fault causes (the decoder rejects by four of them). -/

namespace Sys2Proof

/-- The three addressing modes (`30_encoding.md` R52). -/
inductive Mode where
  | position
  | immediate
  | relative
  deriving DecidableEq, Repr

/-- A source parameter, through which a value is read (`20_memory.md` R40): its mode and its raw parameter word. -/
inductive Source where
  | position (address : Int)
  | immediate (value : Int)
  | relative (offset : Int)
  deriving DecidableEq, Repr

/-- A destination parameter, through which a result is written (`20_memory.md` R40, R43). Immediate is never a
valid destination (R59), so it has no constructor: the decoder rejects it with `immediateDestination`. -/
inductive Dest where
  | position (address : Int)
  | relative (offset : Int)
  deriving DecidableEq, Repr

/-- The ten operations of the opcode table (`30_encoding.md` R53). -/
inductive Opcode where
  | add | mul | inp | out | jt | jf | lt | eq | arb | hlt
  deriving DecidableEq, Repr

/-- The ten instructions (`30_encoding.md` R53), their parameters in parameter order. -/
inductive Instr where
  | add (a b : Source) (d : Dest)
  | mul (a b : Source) (d : Dest)
  | inp (d : Dest)
  | out (a : Source)
  | jt (a b : Source)
  | jf (a b : Source)
  | lt (a b : Source) (d : Dest)
  | eq (a b : Source) (d : Dest)
  | arb (a : Source)
  | hlt
  deriving DecidableEq, Repr

/-- The seven fault causes (`10_state.md` R19, `60_exceptions.md` R85 to R91). The spec's cause 0, `NONE`, is the
absence of one: `State.cause` is an `Option` of these. -/
inductive FaultCause where
  | illegalOpcode
  | badModeDigit
  | reservedModeDigit
  | immediateDestination
  | negativeAddress
  | inputExhausted
  | wordOverflow
  deriving DecidableEq, Repr

/-- The mode of a source parameter. -/
def Source.mode : Source → Mode
  | .position _ => .position
  | .immediate _ => .immediate
  | .relative _ => .relative

/-- The raw parameter word of a source parameter. -/
def Source.raw : Source → Int
  | .position x => x
  | .immediate x => x
  | .relative x => x

/-- The mode of a destination parameter. -/
def Dest.mode : Dest → Mode
  | .position _ => .position
  | .relative _ => .relative

/-- The raw parameter word of a destination parameter. -/
def Dest.raw : Dest → Int
  | .position x => x
  | .relative x => x

/-- The operation of an instruction. -/
def Instr.opcode : Instr → Opcode
  | .add _ _ _ => .add
  | .mul _ _ _ => .mul
  | .inp _ => .inp
  | .out _ => .out
  | .jt _ _ => .jt
  | .jf _ _ => .jf
  | .lt _ _ _ => .lt
  | .eq _ _ _ => .eq
  | .arb _ => .arb
  | .hlt => .hlt

/-- The parameters of an instruction, in parameter order, each as its mode and its raw word
(`30_encoding.md` R49, R53). -/
def Instr.params : Instr → List (Mode × Int)
  | .add a b d => [(a.mode, a.raw), (b.mode, b.raw), (d.mode, d.raw)]
  | .mul a b d => [(a.mode, a.raw), (b.mode, b.raw), (d.mode, d.raw)]
  | .inp d => [(d.mode, d.raw)]
  | .out a => [(a.mode, a.raw)]
  | .jt a b => [(a.mode, a.raw), (b.mode, b.raw)]
  | .jf a b => [(a.mode, a.raw), (b.mode, b.raw)]
  | .lt a b d => [(a.mode, a.raw), (b.mode, b.raw), (d.mode, d.raw)]
  | .eq a b d => [(a.mode, a.raw), (b.mode, b.raw), (d.mode, d.raw)]
  | .arb a => [(a.mode, a.raw)]
  | .hlt => []

/-- The destination parameter of an instruction that has one (`30_encoding.md` R53). -/
def Instr.dest : Instr → Option Dest
  | .add _ _ d => some d
  | .mul _ _ d => some d
  | .inp d => some d
  | .out _ => none
  | .jt _ _ => none
  | .jf _ _ => none
  | .lt _ _ d => some d
  | .eq _ _ d => some d
  | .arb _ => none
  | .hlt => none

end Sys2Proof
end

