-- ==== Sys2Proof/WellFormed.lean ====
section
/-! DEFINITION. Which instructions the machine can hold in its memory: every parameter word is a Word
(`30_encoding.md` R55). That a destination is not Immediate (R59) is in the type `Dest`. -/

namespace Sys2Proof

/-- The parameter word of a source is a Word. -/
def Source.wellFormed (w : WordBits) (a : Source) : Bool := w.inWord a.raw

/-- The parameter word of a destination is a Word. -/
def Dest.wellFormed (w : WordBits) (d : Dest) : Bool := w.inWord d.raw

/-- Every parameter word of the instruction is a Word of width `w`. -/
def Instr.wellFormed (w : WordBits) : Instr → Bool
  | .add a b d => a.wellFormed w && b.wellFormed w && d.wellFormed w
  | .mul a b d => a.wellFormed w && b.wellFormed w && d.wellFormed w
  | .inp d => d.wellFormed w
  | .out a => a.wellFormed w
  | .jt a b => a.wellFormed w && b.wellFormed w
  | .jf a b => a.wellFormed w && b.wellFormed w
  | .lt a b d => a.wellFormed w && b.wellFormed w && d.wellFormed w
  | .eq a b d => a.wellFormed w && b.wellFormed w && d.wellFormed w
  | .arb a => a.wellFormed w
  | .hlt => true

end Sys2Proof
end

