-- ==== Sys2Proof/Decode.lean ====
section
/-! DEFINITION. The instruction encoding of `30_encoding.md`: the opcode numbers, the decimal digit fields, the
decoder (rows 2 to 7 of `40_execution_loop.md` R69) and the encoder. -/

namespace Sys2Proof

/-- `n`, the parameter count, "fixed per opcode" (`30_encoding.md` R53). -/
def Opcode.paramCount : Opcode → Nat
  | .add | .mul | .lt | .eq => 3
  | .jt | .jf => 2
  | .inp | .out | .arb => 1
  | .hlt => 0

/-- The index of the destination parameter, where the opcode has one: always the last (`20_memory.md` R40). -/
def Opcode.destIndex : Opcode → Option Nat
  | .add | .mul | .lt | .eq => some 2
  | .inp => some 0
  | .out | .jt | .jf | .arb | .hlt => none

/-- `len = 1 + n`, the length of an instruction in Words (`30_encoding.md` R49). -/
def Instr.length (i : Instr) : Nat := 1 + i.opcode.paramCount

/-- The opcode number (`30_encoding.md` R53). 5, 6, 7 and 8 come to the spec from general knowledge
(`92_eei_decisions.md` D3): this is the one table that holds the numbers (log entry 10). -/
def Opcode.number : Opcode → Nat
  | .add => 1
  | .mul => 2
  | .inp => 3
  | .out => 4
  | .jt => 5
  | .jf => 6
  | .lt => 7
  | .eq => 8
  | .arb => 9
  | .hlt => 99

/-- The rows of the opcode table. -/
def opcodes : List Opcode := [.add, .mul, .inp, .out, .jt, .jf, .lt, .eq, .arb, .hlt]

/-- The row an opcode field selects, if any (`30_encoding.md` R53, R56). -/
def Opcode.ofNumber (k : Nat) : Option Opcode := opcodes.find? fun op => op.number == k

/-- `dig(w, k) = (w div 10^k) mod 10`, the decimal digit of weight `10^k` (`00_scope.md` section 5). -/
def digit (w k : Nat) : Nat := w / 10 ^ k % 10

/-- The mode digit of a mode (`30_encoding.md` R52). -/
def Mode.digit : Mode → Nat
  | .position => 0
  | .immediate => 1
  | .relative => 2

/-- `mode(i) = dig(iw, 2 + i)`; any digit but 0, 1, 2 is `BAD_MODE_DIGIT` (`30_encoding.md` R52, R57). -/
def modeAt (w i : Nat) : Except FaultCause Mode :=
  match digit w (2 + i) with
  | 0 => .ok .position
  | 1 => .ok .immediate
  | 2 => .ok .relative
  | _ => .error .badModeDigit

/-- The digits above the last parameter's must be 0: `iw div 10^(2+n) == 0` (`30_encoding.md` R58). -/
def checkReserved (w n : Nat) : Except FaultCause Unit :=
  if w / 10 ^ (2 + n) = 0 then .ok () else .error .reservedModeDigit

/-- The source parameter of a mode and a raw word (`30_encoding.md` R55). -/
def Mode.source (m : Mode) (raw : Int) : Source :=
  match m with
  | .position => .position raw
  | .immediate => .immediate raw
  | .relative => .relative raw

/-- The destination parameter of a mode and a raw word; Immediate is `IMMEDIATE_DESTINATION`
(`30_encoding.md` R59, decided in the decode phase: `92_eei_decisions.md` D8). -/
def Mode.dest (m : Mode) (raw : Int) : Except FaultCause Dest :=
  match m with
  | .position => .ok (.position raw)
  | .immediate => .error .immediateDestination
  | .relative => .ok (.relative raw)

/-- `raw(i)`, the Word after the instruction word at distance `1 + i` (`30_encoding.md` R49). A list that ends
before it stands for memory nothing has written there, which reads 0 (`20_memory.md` R30, R39). -/
def rawAt (ws : List Int) (i : Nat) : Int := ws.getD (1 + i) 0

/-- Format F3: two sources and a destination (`30_encoding.md` R54). -/
def decodeF3 (mk : Source → Source → Dest → Instr) (w : Nat) (ws : List Int) : Except FaultCause Instr := do
  let m0 ← modeAt w 0
  let m1 ← modeAt w 1
  let m2 ← modeAt w 2
  checkReserved w 3
  let d ← m2.dest (rawAt ws 2)
  return mk (m0.source (rawAt ws 0)) (m1.source (rawAt ws 1)) d

/-- Format F2: two sources (`30_encoding.md` R54). -/
def decodeF2 (mk : Source → Source → Instr) (w : Nat) (ws : List Int) : Except FaultCause Instr := do
  let m0 ← modeAt w 0
  let m1 ← modeAt w 1
  checkReserved w 2
  return mk (m0.source (rawAt ws 0)) (m1.source (rawAt ws 1))

/-- Format F1 with a source: OUT and ARB (`30_encoding.md` R54). -/
def decodeF1Source (mk : Source → Instr) (w : Nat) (ws : List Int) : Except FaultCause Instr := do
  let m0 ← modeAt w 0
  checkReserved w 1
  return mk (m0.source (rawAt ws 0))

/-- Format F1 with a destination: IN (`30_encoding.md` R54). -/
def decodeF1Dest (mk : Dest → Instr) (w : Nat) (ws : List Int) : Except FaultCause Instr := do
  let m0 ← modeAt w 0
  checkReserved w 1
  let d ← m0.dest (rawAt ws 0)
  return mk d

/-- Format F0: HLT, whose digits above the opcode are all reserved (`30_encoding.md` R54). -/
def decodeF0 (i : Instr) (w : Nat) : Except FaultCause Instr := do
  checkReserved w 0
  return i

/-- Decode the fields of a non-negative instruction word `w` whose opcode field selected `op`. -/
def decodeFields (op : Opcode) (w : Nat) (ws : List Int) : Except FaultCause Instr :=
  match op with
  | .add => decodeF3 .add w ws
  | .mul => decodeF3 .mul w ws
  | .inp => decodeF1Dest .inp w ws
  | .out => decodeF1Source .out w ws
  | .jt => decodeF2 .jt w ws
  | .jf => decodeF2 .jf w ws
  | .lt => decodeF3 .lt w ws
  | .eq => decodeF3 .eq w ws
  | .arb => decodeF1Source .arb w ws
  | .hlt => decodeF0 .hlt w

/-- The decoder (`40_execution_loop.md` R66): from the Words at `pc, pc + 1, ...` the instruction that begins
there, or the fault the decode phase raises. Words after the instruction are not looked at. -/
def decode (ws : List Int) : Except FaultCause Instr :=
  let iw := ws.getD 0 0
  if iw < 0 then .error .illegalOpcode
  else
    match Opcode.ofNumber (iw.toNat % 100) with
    | none => .error .illegalOpcode
    | some op => decodeFields op iw.toNat ws

/-- The instruction word `iw = opc + 100*A + 1000*B + 10000*C` of an operation and its mode digits
(`30_encoding.md` R54). -/
def instrWord (op : Opcode) (a b c : Nat) : Int := ((op.number + 100 * a + 1000 * b + 10000 * c : Nat) : Int)

/-- The encoder: the Words of an instruction, instruction word first (`30_encoding.md` R49, R54). -/
def encode : Instr → List Int
  | .add a b d => [instrWord .add a.mode.digit b.mode.digit d.mode.digit, a.raw, b.raw, d.raw]
  | .mul a b d => [instrWord .mul a.mode.digit b.mode.digit d.mode.digit, a.raw, b.raw, d.raw]
  | .inp d => [instrWord .inp d.mode.digit 0 0, d.raw]
  | .out a => [instrWord .out a.mode.digit 0 0, a.raw]
  | .jt a b => [instrWord .jt a.mode.digit b.mode.digit 0, a.raw, b.raw]
  | .jf a b => [instrWord .jf a.mode.digit b.mode.digit 0, a.raw, b.raw]
  | .lt a b d => [instrWord .lt a.mode.digit b.mode.digit d.mode.digit, a.raw, b.raw, d.raw]
  | .eq a b d => [instrWord .eq a.mode.digit b.mode.digit d.mode.digit, a.raw, b.raw, d.raw]
  | .arb a => [instrWord .arb a.mode.digit 0 0, a.raw]
  | .hlt => [instrWord .hlt 0 0 0]

/-- The value of 64 bits read as a two's-complement Word. Only the table's bit numbering needs it: no rule of the
spec gives a Word a bit pattern (log entry 9). -/
def signed64 (x : Nat) : Int :=
  if x % 2 ^ 64 < 2 ^ 63 then ((x % 2 ^ 64 : Nat) : Int) else ((x % 2 ^ 64 : Nat) : Int) - ((2 ^ 64 : Nat) : Int)

/-- The four Words that the bits `w` of a table row stand for: 64 bits a Word, the first Word lowest, every bit
above `nbits` zero (log entry 9). -/
def tableWords (nbits w : Nat) : List Int :=
  let x := w % 2 ^ nbits
  [signed64 x, signed64 (x / 2 ^ 64), signed64 (x / 2 ^ 128), signed64 (x / 2 ^ 192)]

/-- The instruction the decoder reads from a table row's bits; `none` where it refuses. -/
def decodeTableWord (nbits w : Nat) : Option Instr := (decode (tableWords nbits w)).toOption

end Sys2Proof
end

