-- ==== Sys2Proof/Config.lean ====
section
/-! DEFINITION. What the spec leaves to the implementation or to the environment: the default width of a Word, and
the answers of the input port that nothing constrains. -/

namespace Sys2Proof

/-- The four answers of the environment to `InPort.request()` (`10_state.md` R23). -/
inductive PortAnswer where
  /-- The next value is `v`, and the environment removes it from whatever it queues. -/
  | value (v : Int)
  /-- No value is available yet but one may come. -/
  | wait
  /-- There is no next value and there never will be. -/
  | exhausted
  /-- There is no next value because the sender on the far side has gone. -/
  | closed
  deriving DecidableEq, Repr, Inhabited

/-- The width of a Word in `State.reset`: the default of R6, W = 64. `State.wordBits` carries the width, so every
statement about all states is one about every width (log entry 1). -/
def Config.wordBits : WordBits := .bits 64

/-- FREE VALUE (U10 of `93_implementation_defined.md`): the environment's answer to the `n`-th request for which
`State.answers` holds no answer. It has no body, so no proof can see which answer it is (log entry 3). -/
opaque Config.portAnswer : Nat → PortAnswer

end Sys2Proof
end

