-- ==== Sys2Proof/Machine/State.lean ====
section
/-! DEFINITION. The state of one core (`10_state.md` R9), what of its environment a step reads and writes, the
parameter `WORD_BITS`, and the state after reset. -/

namespace Sys2Proof.Machine

/-- Memory as (address, Word) pairs: the addressable unit is the Word (`20_memory.md` R28), so a cell holds a Word
where another machine's would hold a byte. An address no pair lists reads as `Memory.default`. The canonical form
is `Memory.wf` of `Machine/Ops.lean`. -/
abbrev Memory := List (Nat × Int)

/-- The values of the run-status register (`10_state.md` R18). -/
inductive Status where
  /-- The core executes steps. -/
  | running
  /-- The run ended by HLT. -/
  | halted
  /-- The run ended by a fetch at or beyond the extent. -/
  | endOfStream
  /-- The run ended because the input port answered `CLOSED`. -/
  | inputClosed
  /-- The run was aborted by a fault, which `cause` names. -/
  | faulted
  deriving DecidableEq, Repr

/-- The state of one core. The first six fields are the complete state of `10_state.md` R9. -/
structure State where
  /-- The program counter, an address (R12): never negative. -/
  pc : Nat
  /-- The relative base, a signed Word (R14). -/
  rb : Int
  /-- The memory `M` (R16). -/
  mem : Memory
  /-- The extent: one more than the highest address ever loaded or written (R17). -/
  ext : Nat
  /-- The run-status register (R18). -/
  status : Status
  /-- The fault-cause register (R19); `none` is the spec's own value `NONE`, code 0. -/
  cause : Option FaultCause
  /-- The output trace: the Words emitted since reset, oldest first (R24, R26). The environment keeps it (R101). -/
  outTrace : List Int
  /-- The MODEL's own: the environment's answers to the coming input requests, next first (R23, log entry 3). -/
  answers : List PortAnswer
  /-- The MODEL's own: how many answers have been drawn from `Config.portAnswer` (log entry 3). -/
  draws : Nat
  /-- The parameter `WORD_BITS` (R6, R8); no step changes it (log entry 1). -/
  wordBits : WordBits
  deriving DecidableEq, Repr

/-- Why the machine has no step. -/
inductive Fault where
  /-- Raised by `step`, and by nothing else, when `status` is not `RUNNING`: "A core has a step if and only if
  status == RUNNING" (`40_execution_loop.md` R64). Safe: the run is over and the state is final (R27). A fault OF
  THE SPEC is no such outcome: it is a next state with `status = faulted` and its `cause`. -/
  | notRunning
  deriving DecidableEq, Repr

/-- Why an instruction has no meaning. -/
inductive Refusal where
  /-- Raised by an arm of `exec` whose instruction has no meaning yet; no arm raises it now. Safe. -/
  | notModelled (mnemonic : String)
  deriving DecidableEq, Repr

/-- The state after reset with the empty image (`10_state.md` R26, legal by `92_eei_decisions.md` D31) and the
default width. `resetWith` of `Machine/Ops.lean` is reset with any image (log entry 2). -/
def State.reset : State where
  pc := 0
  rb := 0
  mem := []
  ext := 0
  status := .running
  cause := none
  outTrace := []
  answers := []
  draws := 0
  wordBits := Config.wordBits

end Sys2Proof.Machine
end

