-- ==== Sys2Proof/Machine/Ops.lean ====
section
/-! DEFINITION. The named operations over memory, the registers and the two ports; how a step ends other than by
completing (fault, stop, hold); reset with an image. -/

namespace Sys2Proof.Machine

/-! ## Memory -/

/-- What an address that nothing has written reads as (`20_memory.md` R30). -/
def Memory.default : Int := 0

/-- `M[a]`, the Word held at address `a` (`20_memory.md` R33). Total: every address reads. -/
def Memory.read (m : Memory) (a : Nat) : Int :=
  match m with
  | [] => Memory.default
  | (k, v) :: rest => if k = a then v else Memory.read rest a

/-- Put the cell `(a, v)` in front of cells that all lie above `a`: no cell where `v` is the default. -/
def Memory.put (a : Nat) (v : Int) (m : Memory) : Memory :=
  if v = Memory.default then m else (a, v) :: m

/-- `M[a] <- v`, keeping the canonical form (`20_memory.md` R34). -/
def Memory.write (m : Memory) (a : Nat) (v : Int) : Memory :=
  match m with
  | [] => Memory.put a v []
  | (k, u) :: rest =>
    if a < k then Memory.put a v ((k, u) :: rest)
    else if a = k then Memory.put a v rest
    else (k, u) :: Memory.write rest a v

/-- The cells lie at addresses `lo` or above, strictly rising, and none holds the default. -/
def Memory.wfFrom (lo : Nat) (m : Memory) : Bool :=
  match m with
  | [] => true
  | (k, v) :: rest => decide (lo ≤ k) && decide (v ≠ Memory.default) && Memory.wfFrom (k + 1) rest

/-- The canonical form: addresses strictly rising, no cell equal to what an unlisted address reads as. -/
def Memory.wf (m : Memory) : Bool := Memory.wfFrom 0 m

/-- Memory with the Words of an image at consecutive addresses from `a` (`70_reset_and_hazards.md` R103, R104). -/
def Memory.load (m : Memory) (a : Nat) (img : List Int) : Memory :=
  match img with
  | [] => m
  | v :: rest => Memory.load (m.write a v) (a + 1) rest

/-- `MemWrite(a, 1, v)`: the cell is written and `ext` raised to at least `a + 1` (`20_memory.md` R34). -/
def State.memWrite (s : State) (a : Nat) (v : Int) : State :=
  { s with mem := s.mem.write a v, ext := max s.ext (a + 1) }

/-! ## Registers -/

/-- `pc <- a`. -/
def State.setPc (s : State) (a : Nat) : State := { s with pc := a }

/-- `rb <- v`; ARB alone does it (`10_state.md` R14). -/
def State.setRb (s : State) (v : Int) : State := { s with rb := v }

/-- The encoding of `status` as a number (`10_state.md` R18). -/
def Status.code : Status → Nat
  | .running => 0
  | .halted => 1
  | .endOfStream => 2
  | .inputClosed => 3
  | .faulted => 4

/-- The code of a fault cause (`10_state.md` R19). -/
def causeCode : Option FaultCause → Nat
  | none => 0
  | some .illegalOpcode => 1
  | some .badModeDigit => 2
  | some .reservedModeDigit => 3
  | some .immediateDestination => 4
  | some .negativeAddress => 5
  | some .inputExhausted => 6
  | some .wordOverflow => 7

/-! ## Ends of a step -/

/-- Fault entry (`60_exceptions.md` R93): `status <- FAULTED; cause <- c`, and nothing else. There is no handler
and no return from a fault (R95). -/
def raise (c : FaultCause) (s : State) : State := { s with status := .faulted, cause := some c }

/-- `stop <STATUS>` (`40_execution_loop.md` R71): the run ends without a fault. -/
def stop (st : Status) (s : State) : State := { s with status := st }

/-- `hold` (`43_io.md` R78): no register and no cell changes, and the same step is attempted again. -/
def hold (s : State) : State := s

/-- How an instruction's step ends: its committed state, or the fault it raises, in which case nothing it would
have committed is kept (`40_execution_loop.md` R64, R70). -/
def settle (s : State) (r : Except FaultCause State) : Host.Outcome State Fault Refusal :=
  .next (match r with
    | .ok t => t
    | .error c => raise c s)

/-! ## Ports -/

/-- An answer as the input port delivers it: it delivers only Words (`10_state.md` R23, `92_eei_decisions.md` D28).
An answer `VALUE(v)` whose `v` is no Word, which no environment gives, is read as `WAIT` (log entry 4). -/
def deliver (w : WordBits) : PortAnswer → PortAnswer
  | .value v => if w.inWord v then .value v else .wait
  | .wait => .wait
  | .exhausted => .exhausted
  | .closed => .closed

/-- What the environment answers to `InPort.request()` (`10_state.md` R23): the next of `answers`, else a free
value. -/
def portAnswer (s : State) : PortAnswer :=
  match s.answers with
  | a :: _ => deliver s.wordBits a
  | [] => deliver s.wordBits (Config.portAnswer s.draws)

/-- The state after one request: the environment has given one answer; the core's own state is as before. -/
def State.afterRequest (s : State) : State :=
  match s.answers with
  | _ :: rest => { s with answers := rest }
  | [] => { s with draws := s.draws + 1 }

/-- `OutPort.emit(v)` (`10_state.md` R24): the port always accepts, and the value ends the output trace. -/
def State.emit (s : State) (v : Int) : State := { s with outTrace := s.outTrace ++ [v] }

/-! ## Reset -/

/-- Reset with an image (`10_state.md` R26, `70_reset_and_hazards.md` R103, R104), for a width and an environment.
Only the image is the core's: `answers` and `draws` say what its environment will answer. -/
def resetWith (w : WordBits) (answers : List PortAnswer) (draws : Nat) (img : List Int) : State :=
  { State.reset with
    mem := Memory.load [] 0 img, ext := img.length, answers := answers, draws := draws, wordBits := w }

/-- The host resets a core with an image: no state of the run before survives (`10_state.md` R27, R104). The width
is the implementation's and the answers to come are the environment's, so they stay. -/
def State.hostReset (s : State) (img : List Int) : State := resetWith s.wordBits s.answers s.draws img

/-- Which images reset takes: `0 <= L <= WMAX + 1`, every element a Word (R103). -/
def imageOk (w : WordBits) (img : List Int) : Bool :=
  img.all w.inWord && !w.aboveMax ((img.length : Int) - 1)

/-! ## Fetch -/

/-- The Words at `pc .. pc + 3`, as many as the longest instruction has. Reads have no side effect
(`20_memory.md` R33), so reading a Word the instruction turns out not to have is not observable (R37). -/
def fetchWords (s : State) : List Int :=
  [s.mem.read s.pc, s.mem.read (s.pc + 1), s.mem.read (s.pc + 2), s.mem.read (s.pc + 3)]

/-- Fetch and decode at `pc` (`40_execution_loop.md` R65, R66). -/
def fetch (s : State) : Except FaultCause Instr := decode (fetchWords s)

/-- Store Words at consecutive addresses from `a`, those that are addresses. -/
def State.placeWords (s : State) (a : Nat) (ws : List Int) : State :=
  match ws with
  | [] => s
  | v :: rest => State.placeWords (if s.wordBits.aboveMax a then s else s.memWrite a v) (a + 1) rest

end Sys2Proof.Machine
end

