-- ==== Sys2Proof/Machine/Operands.lean ====
section
/-! DEFINITION. The addressing resolver (`20_memory.md` R39 to R43) and the two range checks that instructions
share (`40_execution_loop.md` R68). -/

namespace Sys2Proof.Machine

/-- The checks on an effective address, the sign first (`20_memory.md` R41). -/
def checkAddress (s : State) (ea : Int) : Except FaultCause Nat :=
  if ea < 0 then .error .negativeAddress
  else if s.wordBits.aboveMax ea then .error .wordOverflow
  else .ok ea.toNat

/-- `read(i)`, the value of a source parameter (`20_memory.md` R42): Immediate is the literal, Position and
Relative read the Word at the effective address of R41. -/
def readSource (s : State) : Source → Except FaultCause Int
  | .position address => do
      let a ← checkAddress s address
      return s.mem.read a
  | .immediate value => .ok value
  | .relative offset => do
      let a ← checkAddress s (s.rb + offset)
      return s.mem.read a

/-- `dst(i)`, the address a destination parameter designates (`20_memory.md` R43). The cell is not read. -/
def resolveDest (s : State) : Dest → Except FaultCause Nat
  | .position address => checkAddress s address
  | .relative offset => checkAddress s (s.rb + offset)

/-- The `n` parameter words lie in the address range, else `WORD_OVERFLOW` before any is read
(`20_memory.md` R39; row 8 of `40_execution_loop.md` R69). -/
def checkParams (s : State) (n : Nat) : Except FaultCause Unit :=
  if s.wordBits.aboveMax ((s.pc : Int) + n) then .error .wordOverflow else .ok ()

/-- The sequential advance `npc <- pc + len`, `WORD_OVERFLOW` above WMAX (`40_execution_loop.md` R68 (a)). -/
def advance (s : State) (len : Nat) : Except FaultCause Nat :=
  if s.wordBits.aboveMax ((s.pc : Int) + len) then .error .wordOverflow else .ok (s.pc + len)

/-- A result that is not a Word raises `WORD_OVERFLOW`; it is never wrapped (`40_execution_loop.md` R68 (b),
`00_scope.md` R7). -/
def fitWord (s : State) (v : Int) : Except FaultCause Int :=
  if s.wordBits.inWord v then .ok v else .error .wordOverflow

/-- The common shape of ADD, MUL, LT and EQ (format F3): resolve the parameters in parameter order, advance,
compute, write the result (`40_execution_loop.md` R67, R68, R70). -/
def storeResult (compute : Int → Int → Except FaultCause Int) (a b : Source) (d : Dest) (s : State) :
    Host.Outcome State Fault Refusal :=
  settle s do
    checkParams s 3
    let v0 ← readSource s a
    let v1 ← readSource s b
    let ad ← resolveDest s d
    let npc ← advance s 4
    let result ← compute v0 v1
    return (s.memWrite ad result).setPc npc

/-- The common shape of JT and JF (format F2): both parameters are read whether or not the jump is taken
(`40_execution_loop.md` R67); a taken jump goes to `v(1)`, which must not be negative (`44_jump.md` R80). -/
def jumpWhen (taken : Int → Bool) (a b : Source) (s : State) : Host.Outcome State Fault Refusal :=
  settle s do
    checkParams s 2
    let v0 ← readSource s a
    let v1 ← readSource s b
    if taken v0 then
      if v1 < 0 then .error .negativeAddress else return s.setPc v1.toNat
    else
      let npc ← advance s 3
      return s.setPc npc

end Sys2Proof.Machine
end

