-- ==== Sys2Proof/Machine/Arithmetic.lean ====
section
/-! DEFINITION. ADD and MUL (`41_arithmetic.md`). -/

namespace Sys2Proof.Machine

/-- ADD: `dst := read(p0) + read(p1)`, the exact sum, `WORD_OVERFLOW` where it is no Word (`41_arithmetic.md` R73). -/
def execAdd (a b : Source) (d : Dest) (s : State) : Host.Outcome State Fault Refusal :=
  storeResult (fun v0 v1 => fitWord s (v0 + v1)) a b d s

/-- MUL: `dst := read(p0) * read(p1)`, the exact product, `WORD_OVERFLOW` where it is no Word
(`41_arithmetic.md` R74). -/
def execMul (a b : Source) (d : Dest) (s : State) : Host.Outcome State Fault Refusal :=
  storeResult (fun v0 v1 => fitWord s (v0 * v1)) a b d s

end Sys2Proof.Machine
end

