-- ==== Sys2Proof/Machine/Flags.lean ====
section
/-! DEFINITION. The core has no flags, condition codes or predicate registers (`10_state.md` R15). What another
machine keeps in flags is here: the 0-or-1 results of the two comparisons and the tests of the two jumps. -/

namespace Sys2Proof.Machine

/-- The result of LT: 1 if `v0 < v1` in the signed order of the integers, strictly, else 0 (`42_compare.md` R76). -/
def lessThan (v0 v1 : Int) : Int := if v0 < v1 then 1 else 0

/-- The result of EQ: 1 if the two are the same integer, else 0 (`42_compare.md` R77). -/
def equals (v0 v1 : Int) : Int := if v0 = v1 then 1 else 0

/-- JT is taken on any non-zero Word, negative ones included (`44_jump.md` R80). -/
def isNonzero (v : Int) : Bool := decide (v ≠ 0)

/-- JF is taken on 0 (`44_jump.md` R81). -/
def isZero (v : Int) : Bool := decide (v = 0)

end Sys2Proof.Machine
end

