-- ==== Sys2Proof/Machine/Compare.lean ====
section
/-! DEFINITION. LT and EQ (`42_compare.md`). The comparison itself cannot fault. -/

namespace Sys2Proof.Machine

/-- LT: `dst := 1 if read(p0) < read(p1) else 0` (`42_compare.md` R76). -/
def execLt (a b : Source) (d : Dest) (s : State) : Host.Outcome State Fault Refusal :=
  storeResult (fun v0 v1 => .ok (lessThan v0 v1)) a b d s

/-- EQ: `dst := 1 if read(p0) == read(p1) else 0` (`42_compare.md` R77). -/
def execEq (a b : Source) (d : Dest) (s : State) : Host.Outcome State Fault Refusal :=
  storeResult (fun v0 v1 => .ok (equals v0 v1)) a b d s

end Sys2Proof.Machine
end

