-- ==== Sys2Proof/Machine/Io.lean ====
section
/-! DEFINITION. IN and OUT (`43_io.md`). -/

namespace Sys2Proof.Machine

/-- What IN does with the port's answer, `ad` being its destination and `npc` the next instruction
(`43_io.md` R78). In none of the three answers but `VALUE` is memory written or `pc` advanced. -/
def input (ad npc : Nat) (s : State) : State :=
  match portAnswer s with
  | .value v => (s.afterRequest.memWrite ad v).setPc npc
  | .wait => hold s.afterRequest
  | .exhausted => raise .inputExhausted s.afterRequest
  | .closed => stop .inputClosed s.afterRequest

/-- IN: `dst := next value from Input capability`. The request is made last, so an IN that faults for a reason of
its own asks for nothing (`43_io.md` R78). -/
def execIn (d : Dest) (s : State) : Host.Outcome State Fault Refusal :=
  settle s do
    checkParams s 1
    let ad ← resolveDest s d
    let npc ← advance s 2
    return input ad npc s

/-- OUT: `Output capability receives read(p0)`. The port cannot refuse, delay or fail (`43_io.md` R79). -/
def execOut (a : Source) (s : State) : Host.Outcome State Fault Refusal :=
  settle s do
    checkParams s 1
    let v0 ← readSource s a
    let npc ← advance s 2
    return (s.emit v0).setPc npc

end Sys2Proof.Machine
end

