-- ==== Sys2Proof/Machine/Jump.lean ====
section
/-! DEFINITION. JT and JF (`44_jump.md`). -/

namespace Sys2Proof.Machine

/-- JT: `if read(p0) != 0: pc := read(p1); else +len` (`44_jump.md` R80). -/
def execJt (a b : Source) (s : State) : Host.Outcome State Fault Refusal := jumpWhen isNonzero a b s

/-- JF: `if read(p0) == 0: pc := read(p1); else +len` (`44_jump.md` R81). -/
def execJf (a b : Source) (s : State) : Host.Outcome State Fault Refusal := jumpWhen isZero a b s

end Sys2Proof.Machine
end

