-- ==== Sys2Proof/Machine/RelbaseHalt.lean ====
section
/-! DEFINITION. ARB and HLT (`45_relbase_halt.md`). -/

namespace Sys2Proof.Machine

/-- ARB: `relative_base += read(p0)`; the parameter is read through the old `rb` (`45_relbase_halt.md` R82). -/
def execArb (a : Source) (s : State) : Host.Outcome State Fault Refusal :=
  settle s do
    checkParams s 1
    let v0 ← readSource s a
    let npc ← advance s 2
    let nrb ← fitWord s (s.rb + v0)
    return (s.setRb nrb).setPc npc

/-- HLT: `status <- HALTED`; `pc` keeps the address of the HLT word (`45_relbase_halt.md` R83). -/
def execHlt (s : State) : Host.Outcome State Fault Refusal := .next (stop .halted s)

end Sys2Proof.Machine
end

