-- ==== Sys2Proof/Machine/Step.lean ====
section
/-! DEFINITION. The step (`40_execution_loop.md` R64) and the placing of an instruction where it fetches. -/

namespace Sys2Proof.Machine

/-- One step (`40_execution_loop.md` R64, R65). A core whose status is not `RUNNING` has none. -/
def step (s : State) : Host.Outcome State Fault Refusal :=
  match s.status with
  | .running =>
    if s.ext ≤ s.pc then .next (stop .endOfStream s)
    else
      match fetch s with
      | .error c => .next (raise c s)
      | .ok i => exec i s
  | .halted => .fault .notRunning
  | .endOfStream => .fault .notRunning
  | .inputClosed => .fault .notRunning
  | .faulted => .fault .notRunning

/-- The state with the instruction of a table row's bits stored at `pc`, inside the extent, and running: the load
from outside the machine that reset with an image is (log entries 2 and 9). -/
def State.withFetchWord (s : State) (nbits w : Nat) : State :=
  { s.placeWords s.pc (tableWords nbits w) with status := .running, cause := none }

end Sys2Proof.Machine
end

