-- ==== Sys2Proof/Machine/HostView.lean ====
section
/-! DEFINITION. What the host may read of a core, and when (`10_state.md` R20, `20_memory.md` R48,
`60_exceptions.md` R101). -/

namespace Sys2Proof.Machine

/-- The state the host may read after a stop only. -/
structure FinalView where
  pc : Nat
  rb : Int
  mem : Memory
  ext : Nat
  deriving DecidableEq, Repr

/-- What the host may read: the two bookkeeping registers by their codes at any time, and the output trace, which
the environment keeps; the rest after a stop. -/
structure HostView where
  status : Nat
  cause : Nat
  outTrace : List Int
  final : Option FinalView
  deriving DecidableEq, Repr

/-- The host's view of a state (R20: "after a stop" for `pc`, `rb`, `M`, `ext`; "always" for `status`, `cause`). -/
def hostView (s : State) : HostView where
  status := s.status.code
  cause := causeCode s.cause
  outTrace := s.outTrace
  final := if s.status = .running then none else some ⟨s.pc, s.rb, s.mem, s.ext⟩

end Sys2Proof.Machine
end

