-- ==== Sys2Proof/Safety.lean ====
section
/-! DEFINITION. The invariant of a core's state, and the ways a run ends, in the terms that statements use. -/

namespace Sys2Proof.Machine

/-- What holds of every state a run reaches. -/
structure CoreInv (s : State) : Prop where
  /-- `WORD_BITS` is one of the widths of R6. -/
  width : s.wordBits.legal = true
  /-- `0 <= pc <= WMAX`, "at all times" (R12). -/
  pc_address : s.wordBits.aboveMax s.pc = false
  /-- `rb` holds a Word (R14). -/
  rb_word : s.wordBits.inWord s.rb = true
  /-- The memory has its canonical form. -/
  mem_wf : s.mem.wf = true
  /-- `M` maps to Words (R16). -/
  mem_words : ∀ a v, (a, v) ∈ s.mem → s.wordBits.inWord v = true
  /-- Every cell that was loaded or written lies below the extent (R17). -/
  mem_below_ext : ∀ a v, (a, v) ∈ s.mem → a < s.ext
  /-- `0 <= ext <= WMAX + 1` (R17). -/
  ext_bound : s.wordBits.aboveMax ((s.ext : Int) - 1) = false
  /-- "`cause != NONE` if and only if `status == FAULTED`" (R19). -/
  cause_iff : s.cause ≠ none ↔ s.status = .faulted
  /-- Only Words were emitted (R24). -/
  out_words : ∀ v ∈ s.outTrace, s.wordBits.inWord v = true

/-- `t` is reached from `s` by steps (`40_execution_loop.md` R72). -/
inductive Reaches (s : State) : State → Prop where
  | refl : Reaches s s
  | tail {t u : State} : Reaches s t → step t = .next u → Reaches s u

/-- `t` is reached from `s` by steps none of which runs an instruction whose destination is the cell `a`
(`20_memory.md` R34, R47). -/
inductive ReachesKeeping (a : Nat) (s : State) : State → Prop where
  | refl : ReachesKeeping a s s
  | tail {t u : State} : ReachesKeeping a s t → step t = .next u →
      (∀ i d, fetch t = .ok i → i.dest = some d → resolveDest t d ≠ .ok a) → ReachesKeeping a s u

/-- The run is over: `status != RUNNING` (R72). -/
def Ended (s : State) : Prop := s.status ≠ .running

/-- The end a program asks for: "only `HALTED` be taken as the intended end" (`92_eei_decisions.md` D25). -/
def EndedAsIntended (s : State) : Prop := s.status = .halted

/-- The run was aborted by a fault (`60_exceptions.md` R84, R93): never a normal end. -/
def Aborted (s : State) : Prop := s.status = .faulted

/-- The step at `s` is an IN that the port makes wait: every check before its request passes and the answer is
`WAIT` (`43_io.md` R78; rows 8 to 15 of `40_execution_loop.md` R69). -/
def Held (s : State) : Prop :=
  s.status = .running ∧ s.pc < s.ext ∧ portAnswer s = .wait ∧
    ∃ d ad npc, fetch s = .ok (.inp d) ∧ checkParams s 1 = .ok () ∧ resolveDest s d = .ok ad ∧
      advance s 2 = .ok npc

end Sys2Proof.Machine
end

