-- ==== Sys2Proof/Certificates/Slice0/Obligations.lean ====
section
/-! DEFINITION. The statements about the model, from the numbered rules of `spec/`. A statement about an
instruction holds for every operand form; the value of a source and the address of a destination are those that
`SourceParameterValue` and `DestinationParameterAddress` state in the spec's terms. -/

open Sys2Proof Sys2Proof.Machine

/-! ## Terms of the statements: the spec's tables and pseudocode, written without the model's decoder or meanings -/

namespace Sys2Proof.Spec

/-- The opcode numbers of the table of R53. -/
def opcodeNumbers : List Int := [1, 2, 3, 4, 5, 6, 7, 8, 9, 99]

/-- The parameter count of an opcode number (R53). -/
def paramCount (opc : Int) : Nat :=
  if opc ∈ [1, 2, 7, 8] then 3 else if opc ∈ [5, 6] then 2 else if opc ∈ [3, 4, 9] then 1 else 0

/-- `dig(iw, 2 + i)`, the mode digit of parameter `i` of a non-negative instruction word (R52). -/
def modeDigit (iw : Int) (i : Nat) : Int := iw / 10 ^ (2 + i) % 10

/-- The opcode field selects a row of the table (R50, R51, R53). -/
def selectsRow (iw : Int) : Prop := 0 ≤ iw ∧ iw % 100 ∈ opcodeNumbers

/-- All the parameters' mode digits are 0, 1 or 2 (R52, R57). -/
def modesLegal (iw : Int) : Prop := ∀ i, i < paramCount (iw % 100) → modeDigit iw i ≤ 2

/-- The digits above the last parameter's mode digit are 0 (R58). -/
def reservedZero (iw : Int) : Prop := iw / 10 ^ (2 + paramCount (iw % 100)) = 0

/-- The destination parameter has mode 1 (R59): parameter 2 of ADD, MUL, LT, EQ and parameter 0 of IN. -/
def immediateDest (iw : Int) : Prop :=
  iw % 100 ∈ ([1, 2, 7, 8] : List Int) ∧ modeDigit iw 2 = 1 ∨ iw % 100 = 3 ∧ modeDigit iw 0 = 1

/-- The 18 legal words of a format F3 opcode (R59). -/
def wordsF3 (opc : Int) : List Int :=
  [opc, 100 + opc, 200 + opc, 1000 + opc, 1100 + opc, 1200 + opc, 2000 + opc, 2100 + opc, 2200 + opc] ++
  [20000 + opc, 20100 + opc, 20200 + opc, 21000 + opc, 21100 + opc, 21200 + opc, 22000 + opc, 22100 + opc, 22200 + opc]

/-- The 9 legal words of a format F2 opcode (R59). -/
def wordsF2 (opc : Int) : List Int :=
  [opc, 100 + opc, 200 + opc, 1000 + opc, 1100 + opc, 1200 + opc, 2000 + opc, 2100 + opc, 2200 + opc]

/-- The legal instruction words of R59, row by row of its table. -/
def legalWords : List Int :=
  wordsF3 1 ++ wordsF3 2 ++ [3, 203] ++ [4, 104, 204] ++ wordsF2 5 ++ wordsF2 6 ++ wordsF3 7 ++ wordsF3 8 ++
  [9, 109, 209] ++ [99]

/-- The core is at an instruction word inside the extent: its step goes on to the decode phase. -/
def Decodes (s : State) : Prop := s.status = .running ∧ s.pc < s.ext

/-- The fault of an effective address, if any, the sign first (R41). -/
def addressFault (s : State) (ea : Int) : Option FaultCause :=
  if ea < 0 then some .negativeAddress else if s.wordBits.aboveMax ea then some .wordOverflow else none

/-- The fault a parameter raises in the resolve phase, if any: none in mode 1 (R41, R67). -/
def paramFault (s : State) (p : Mode × Int) : Option FaultCause :=
  match p.1 with
  | .position => addressFault s p.2
  | .immediate => none
  | .relative => addressFault s (s.rb + p.2)

/-- What R73, R74, R76 and R77 say of an instruction with two sources and a destination, from its row 8 of R69 on:
its encoding, its faults in order, and the next state. `checked` says whether the result is range-checked. -/
def StoresResult (mk : Source → Source → Dest → Instr) (opc : Nat) (f : Int → Int → Int) (checked : Bool) : Prop :=
  ∀ (a b : Source) (d : Dest) (s : State),
    encode (mk a b d) =
      [((opc + 100 * a.mode.digit + 1000 * b.mode.digit + 10000 * d.mode.digit : Nat) : Int), a.raw, b.raw, d.raw] ∧
    (s.wordBits.aboveMax ((s.pc : Int) + 3) = true → exec (mk a b d) s = .next (raise .wordOverflow s)) ∧
    (s.wordBits.aboveMax ((s.pc : Int) + 3) = false →
      (∀ c, readSource s a = .error c → exec (mk a b d) s = .next (raise c s)) ∧
      (∀ v0 c, readSource s a = .ok v0 → readSource s b = .error c → exec (mk a b d) s = .next (raise c s)) ∧
      (∀ v0 v1 c, readSource s a = .ok v0 → readSource s b = .ok v1 → resolveDest s d = .error c →
        exec (mk a b d) s = .next (raise c s)) ∧
      (∀ v0 v1 ad, readSource s a = .ok v0 → readSource s b = .ok v1 → resolveDest s d = .ok ad →
        (s.wordBits.aboveMax ((s.pc : Int) + 4) = true → exec (mk a b d) s = .next (raise .wordOverflow s)) ∧
        (s.wordBits.aboveMax ((s.pc : Int) + 4) = false → checked = true → s.wordBits.inWord (f v0 v1) = false →
          exec (mk a b d) s = .next (raise .wordOverflow s)) ∧
        (s.wordBits.aboveMax ((s.pc : Int) + 4) = false → (checked = true → s.wordBits.inWord (f v0 v1) = true) →
          exec (mk a b d) s =
            .next { s with mem := s.mem.write ad (f v0 v1), ext := max s.ext (ad + 1), pc := s.pc + 4 })))

/-- What R80 and R81 say of a jump, `taken` being its condition on `v(0)`: its encoding, its faults in order, and the
next state. Both parameters are read whether or not the jump is taken. -/
def Jumps (mk : Source → Source → Instr) (opc : Nat) (taken : Int → Prop) : Prop :=
  ∀ (a b : Source) (s : State),
    encode (mk a b) = [((opc + 100 * a.mode.digit + 1000 * b.mode.digit : Nat) : Int), a.raw, b.raw] ∧
    (s.wordBits.aboveMax ((s.pc : Int) + 2) = true → exec (mk a b) s = .next (raise .wordOverflow s)) ∧
    (s.wordBits.aboveMax ((s.pc : Int) + 2) = false →
      (∀ c, readSource s a = .error c → exec (mk a b) s = .next (raise c s)) ∧
      (∀ v0 c, readSource s a = .ok v0 → readSource s b = .error c → exec (mk a b) s = .next (raise c s)) ∧
      (∀ v0 v1, readSource s a = .ok v0 → readSource s b = .ok v1 →
        (taken v0 → v1 < 0 → exec (mk a b) s = .next (raise .negativeAddress s)) ∧
        (taken v0 → 0 ≤ v1 → exec (mk a b) s = .next { s with pc := v1.toNat }) ∧
        (¬ taken v0 → s.wordBits.aboveMax ((s.pc : Int) + 3) = true →
          exec (mk a b) s = .next (raise .wordOverflow s)) ∧
        (¬ taken v0 → s.wordBits.aboveMax ((s.pc : Int) + 3) = false →
          exec (mk a b) s = .next { s with pc := s.pc + 3 })))

/-- At `s` the instruction `i` has the destination `d` and the result `v`, a Word (R73, R74, R76, R77, R78). -/
def Stores (s : State) (i : Instr) (d : Dest) (v : Int) : Prop :=
  (∃ a b v0 v1, readSource s a = .ok v0 ∧ readSource s b = .ok v1 ∧
    (i = .add a b d ∧ v = v0 + v1 ∧ s.wordBits.inWord v = true ∨
      i = .mul a b d ∧ v = v0 * v1 ∧ s.wordBits.inWord v = true ∨
      i = .lt a b d ∧ v = (if v0 < v1 then 1 else 0) ∨
      i = .eq a b d ∧ v = (if v0 = v1 then 1 else 0))) ∨
  i = .inp d ∧ portAnswer s = .value v

/-! ### The step as R65 to R70 write it, over digits and raw words -/

/-- `raw(i)` (R39). -/
def raw (s : State) (i : Nat) : Int := s.mem.read (s.pc + 1 + i)

/-- `ea(i)` for a mode digit other than 1 (R41). -/
def ea (s : State) (iw : Int) (i : Nat) : Int := if modeDigit iw i = 0 then raw s i else s.rb + raw s i

/-- `v(i)`, the value of source parameter `i` (R42, R67). -/
def value (s : State) (iw : Int) (i : Nat) : Int :=
  if modeDigit iw i = 1 then raw s i else s.mem.read (ea s iw i).toNat

/-- JT or JF with its jump taken (R80, R81). -/
def jumpTaken (s : State) (iw : Int) : Bool :=
  decide (iw % 100 = 5 ∧ value s iw 0 ≠ 0 ∨ iw % 100 = 6 ∧ value s iw 0 = 0)

/-- The instruction falls through to the next (R68 (a)). -/
def fallsThrough (s : State) (iw : Int) : Bool := decide (iw % 100 ≠ 99) && !jumpTaken s iw

/-- The result of ADD, MUL, LT, EQ or the new `rb` of ARB (R73, R74, R76, R77, R82). -/
def result (s : State) (iw : Int) : Int :=
  if iw % 100 = 1 then value s iw 0 + value s iw 1
  else if iw % 100 = 2 then value s iw 0 * value s iw 1
  else if iw % 100 = 7 then (if value s iw 0 < value s iw 1 then 1 else 0)
  else if iw % 100 = 8 then (if value s iw 0 = value s iw 1 then 1 else 0)
  else s.rb + value s iw 0

/-- The rows of the table of R69, in its order: condition and outcome. Rows 9 to 11 are two rows each. -/
def detectionRows (s : State) : List (Bool × State) :=
  let iw := s.mem.read s.pc
  let opc := iw % 100
  let n := paramCount opc
  let inMemory (i : Nat) : Bool := decide (i < n ∧ modeDigit iw i ≠ 1)
  [(decide (s.ext ≤ s.pc), { s with status := .endOfStream }),
   (decide (iw < 0 ∨ opc ∉ opcodeNumbers), raise .illegalOpcode s),
   (decide (0 < n ∧ 2 < modeDigit iw 0), raise .badModeDigit s),
   (decide (1 < n ∧ 2 < modeDigit iw 1), raise .badModeDigit s),
   (decide (2 < n ∧ 2 < modeDigit iw 2), raise .badModeDigit s),
   (decide (iw / 10 ^ (2 + n) ≠ 0), raise .reservedModeDigit s),
   (decide (opc ∈ ([1, 2, 7, 8] : List Int) ∧ modeDigit iw 2 = 1 ∨ opc = 3 ∧ modeDigit iw 0 = 1),
     raise .immediateDestination s),
   (decide (0 < n) && s.wordBits.aboveMax ((s.pc : Int) + n), raise .wordOverflow s)] ++
  [(inMemory 0 && decide (ea s iw 0 < 0), raise .negativeAddress s),
   (inMemory 0 && s.wordBits.aboveMax (ea s iw 0), raise .wordOverflow s),
   (inMemory 1 && decide (ea s iw 1 < 0), raise .negativeAddress s),
   (inMemory 1 && s.wordBits.aboveMax (ea s iw 1), raise .wordOverflow s),
   (inMemory 2 && decide (ea s iw 2 < 0), raise .negativeAddress s),
   (inMemory 2 && s.wordBits.aboveMax (ea s iw 2), raise .wordOverflow s)] ++
  [(fallsThrough s iw && s.wordBits.aboveMax ((s.pc : Int) + (1 + n : Nat)), raise .wordOverflow s),
   (decide (opc ∈ ([1, 2, 9] : List Int)) && !s.wordBits.inWord (result s iw), raise .wordOverflow s),
   (jumpTaken s iw && decide (value s iw 1 < 0), raise .negativeAddress s),
   (decide (opc = 3 ∧ portAnswer s = .wait), s.afterRequest),
   (decide (opc = 3 ∧ portAnswer s = .exhausted), raise .inputExhausted s.afterRequest),
   (decide (opc = 3 ∧ portAnswer s = .closed), { s.afterRequest with status := .inputClosed }),
   (decide (opc = 99), { s with status := .halted })]

/-- The commit phase of R70, for the instructions that reach it without a row of R69. -/
def committed (s : State) : State :=
  let iw := s.mem.read s.pc
  let opc := iw % 100
  let n := paramCount opc
  let npc := s.pc + (1 + n)
  if opc ∈ ([1, 2, 7, 8] : List Int) then
    { s with
      mem := s.mem.write (ea s iw 2).toNat (result s iw), ext := max s.ext ((ea s iw 2).toNat + 1), pc := npc }
  else if opc = 3 then
    match portAnswer s with
    | .value v =>
      { s.afterRequest with
        mem := s.mem.write (ea s iw 0).toNat v, ext := max s.ext ((ea s iw 0).toNat + 1), pc := npc }
    | _ => s
  else if opc = 4 then { s with outTrace := s.outTrace ++ [value s iw 0], pc := npc }
  else if opc = 9 then { s with rb := s.rb + value s iw 0, pc := npc }
  else { s with pc := if jumpTaken s iw then (value s iw 1).toNat else npc }

/-- The outcome of the first row whose condition holds, else `last`. -/
def firstOutcome (last : State) (rows : List (Bool × State)) : State :=
  match rows with
  | [] => last
  | (c, t) :: rest => if c then t else firstOutcome last rest

/-- The next state of a running core, by the table of R69 and the commit of R70. -/
def tableStep (s : State) : State := firstOutcome (committed s) (detectionRows s)

end Sys2Proof.Spec

open Sys2Proof.Spec

/-! ## Encoding and decoding -/

/-- R50, R56, R85. A negative instruction word or an opcode field outside the table is `ILLEGAL_OPCODE`, and nothing
else is; the step raises it with `pc` at the offending word. The spec decides this itself: D5, D6; opcode numbers 5
to 8 are log entry 10. The order of the faults is R66's and R69's by D11 (log entry 11). -/
def Obligations.UnknownOpcodeIsIllegal : Prop :=
  (∀ (iw : Int) (ps : List Int), decode (iw :: ps) = .error .illegalOpcode ↔ ¬ selectsRow iw) ∧
  (∀ s : State, Decodes s → ¬ selectsRow (s.mem.read s.pc) → step s = .next (raise .illegalOpcode s)) ∧
  causeCode (some .illegalOpcode) = 1

/-- R57, R86. A mode digit 3 to 9 of one of the instruction's parameters is `BAD_MODE_DIGIT`; every opcode but HLT
can raise it. The order of the faults is R66's and R69's by D11 (log entry 11); opcode numbers 5 to 8 are log entry
10. -/
def Obligations.UnknownModeDigitIsBad : Prop :=
  (∀ (iw : Int) (ps : List Int),
    decode (iw :: ps) = .error .badModeDigit ↔ selectsRow iw ∧ ¬ modesLegal iw) ∧
  (∀ s : State, Decodes s → selectsRow (s.mem.read s.pc) → ¬ modesLegal (s.mem.read s.pc) →
    step s = .next (raise .badModeDigit s)) ∧
  (∀ opc ∈ opcodeNumbers,
    (∃ (iw : Int) (ps : List Int), iw % 100 = opc ∧ decode (iw :: ps) = .error .badModeDigit) ↔ opc ≠ 99) ∧
  causeCode (some .badModeDigit) = 2

/-- R58, R87. A non-zero digit above the last parameter's mode digit is `RESERVED_MODE_DIGIT`, HLT included. The spec
decides this itself: D7. The order of the faults is R66's and R69's by D11 (log entry 11); opcode numbers 5 to 8 are
log entry 10. -/
def Obligations.NonzeroReservedDigitFaults : Prop :=
  (∀ (iw : Int) (ps : List Int),
    decode (iw :: ps) = .error .reservedModeDigit ↔ selectsRow iw ∧ modesLegal iw ∧ ¬ reservedZero iw) ∧
  (∀ s : State, Decodes s → selectsRow (s.mem.read s.pc) → modesLegal (s.mem.read s.pc) →
    ¬ reservedZero (s.mem.read s.pc) → step s = .next (raise .reservedModeDigit s)) ∧
  causeCode (some .reservedModeDigit) = 3

/-- R88. Mode 1 on the destination of ADD, MUL, LT, EQ or IN is `IMMEDIATE_DESTINATION`; no other opcode raises it.
The spec decides this itself: D8. The order of the faults is R66's and R69's by D11 (log entry 11); opcode numbers 5
to 8 are log entry 10. -/
def Obligations.ImmediateDestinationFaults : Prop :=
  (∀ (iw : Int) (ps : List Int),
    decode (iw :: ps) = .error .immediateDestination ↔
      selectsRow iw ∧ modesLegal iw ∧ reservedZero iw ∧ immediateDest iw) ∧
  (∀ s : State, Decodes s → selectsRow (s.mem.read s.pc) → modesLegal (s.mem.read s.pc) →
    reservedZero (s.mem.read s.pc) → immediateDest (s.mem.read s.pc) →
    step s = .next (raise .immediateDestination s)) ∧
  causeCode (some .immediateDestination) = 4

/-- R51, R52. What decodes has the opcode field `iw mod 100`, and parameter `k` has the mode of the digit of weight
`10^(2+k)`: 0 Position, 1 Immediate, 2 Relative. That a negative word does not decode is the spec's decision D6;
opcode numbers 5 to 8 are log entry 10. -/
def Obligations.OpcodeFieldAndModeDigits : Prop :=
  ∀ (iw : Int) (ps : List Int) (i : Instr), decode (iw :: ps) = .ok i →
    0 ≤ iw ∧ (i.opcode.number : Int) = iw % 100 ∧ i.params.length = paramCount (iw % 100) ∧
    ∀ k p, i.params[k]? = some p →
      modeDigit iw k = 0 ∧ p.1 = .position ∨ modeDigit iw k = 1 ∧ p.1 = .immediate ∨
        modeDigit iw k = 2 ∧ p.1 = .relative

/-- R59. The legal instruction words are exactly the 99 of its table; every other Word faults when it is decoded, with
one of the four decode causes, and mode 1 on an otherwise legal destination with `IMMEDIATE_DESTINATION`. The spec
decides this itself: D5, D7, D8; opcode numbers 5 to 8 are log entry 10. -/
def Obligations.LegalWordsAreExactlyTheTable : Prop :=
  legalWords.length = 99 ∧ legalWords.Nodup ∧
  (∀ (iw : Int) (ps : List Int), (∃ i, decode (iw :: ps) = .ok i) ↔ iw ∈ legalWords) ∧
  (∀ s : State, Decodes s → s.mem.read s.pc ∉ legalWords →
    ∃ c ∈ [FaultCause.illegalOpcode, .badModeDigit, .reservedModeDigit, .immediateDestination],
      step s = .next (raise c s)) ∧
  (∀ (opc a b : Int) (ps : List Int), opc ∈ ([1, 2, 7, 8] : List Int) → a ∈ ([0, 1, 2] : List Int) →
    b ∈ ([0, 1, 2] : List Int) → decode ((opc + 100 * a + 1000 * b + 10000) :: ps) = .error .immediateDestination) ∧
  (∀ ps : List Int, decode (103 :: ps) = .error .immediateDestination)

/-- Every instruction, with every operand at every value, is what the decoder reads from its encoding, whatever Words
follow it. -/
def Obligations.DecodeOfEncode : Prop :=
  ∀ (i : Instr) (rest : List Int), decode (encode i ++ rest) = .ok i

/-- Whatever the decoder accepts is the encoding of what it answers: no two words mean one instruction. -/
def Obligations.EncodeOfDecode : Prop :=
  ∀ (ws : List Int) (i : Instr), decode ws = .ok i → i.length ≤ ws.length → ws.take i.length = encode i

/-- A few words written out from the formats of R54 and the examples of `95_test_vectors.md` decode to the
instructions they stand for. The numbers 6 and 7 are log entry 10. -/
def Obligations.SampleWordsDecode : Prop :=
  decode [1002, 16, 10, 16] = .ok (.mul (.position 16) (.immediate 10) (.position 16)) ∧
  decode [21107, -4, 5, -6] = .ok (.lt (.immediate (-4)) (.immediate 5) (.relative (-6))) ∧
  decode [203, 9] = .ok (.inp (.relative 9)) ∧
  decode [1206, 1, 2] = .ok (.jf (.relative 1) (.immediate 2)) ∧
  decode [204, -1] = .ok (.out (.relative (-1))) ∧
  decode [109, 1] = .ok (.arb (.immediate 1)) ∧
  decode [99] = .ok .hlt

/-! ## The step -/

/-- When the Words at `pc` decode to an instruction, the step of a running core inside its extent is that
instruction's meaning at that state, with nothing added around it. -/
def Obligations.StepRunsTheDecodedInstruction : Prop :=
  ∀ (s : State) (i : Instr), s.status = .running → s.pc < s.ext →
    decode [s.mem.read s.pc, s.mem.read (s.pc + 1), s.mem.read (s.pc + 2), s.mem.read (s.pc + 3)] = .ok i →
    step s = exec i s

/-- When the Words of an instruction's encoding stand at `pc`, the step runs that instruction. -/
def Obligations.StepRunsTheEncodedInstruction : Prop :=
  ∀ (s : State) (i : Instr), s.status = .running → s.pc < s.ext →
    (∀ k v, (encode i)[k]? = some v → s.mem.read (s.pc + k) = v) → step s = exec i s

/-- R65. Fetch at or beyond the extent ends the run, the empty image at once; inside it the instruction word is the
Word at `pc`, and `ext` is compared with no other address. The spec decides this itself: D4, D17. -/
def Obligations.FetchComparesPcWithTheExtent : Prop :=
  (∀ s : State, s.status = .running → s.ext ≤ s.pc → step s = .next { s with status := .endOfStream }) ∧
  (∀ s : State, s.status = .running → s.pc < s.ext →
    step s = match decode [s.mem.read s.pc, s.mem.read (s.pc + 1), s.mem.read (s.pc + 2), s.mem.read (s.pc + 3)] with
      | .error c => .next (raise c s)
      | .ok i => exec i s) ∧
  (∀ (w : WordBits) (as : List PortAnswer) (n : Nat),
    step (resetWith w as n []) = .next { resetWith w as n [] with status := .endOfStream })

/-- R64, R27. A core has a step if and only if its status is `RUNNING`; after a stop there is none. The spec decides
this itself: D12, D25. That the step function answers `fault notRunning` where there is no step is the model's choice
(log entry 6). -/
def Obligations.StepsExistExactlyWhileRunning : Prop :=
  (∀ s : State, (∃ t, step s = .next t) ↔ s.status = .running) ∧
  (∀ s : State, s.status ≠ .running → step s = .fault .notRunning)

/-- R69 with R65 to R68 and R70. The step of a running core is the outcome of the first row of the table of R69 whose
condition holds, and the commit of R70 where none does. The spec decides this itself: D2, D5 to D12, D14 to D17, D29;
opcode numbers 5 to 8 are log entry 10. The order is D11 (log entry 11); that a request takes one entry of a script
is log entry 3. -/
def Obligations.StepIsTheDetectionTable : Prop :=
  ∀ s : State, s.status = .running → step s = .next (tableStep s)

/-! ## Memory and the resolver -/

/-- R33, R34. `MemWrite` sets one cell, raises `ext` to at least `a + 1` and changes nothing else; `MemRead` then
gives the Word written there and the old Words elsewhere. The spec decides this itself: D4, D16. -/
def Obligations.MemWriteThenMemRead : Prop :=
  ∀ (s : State) (a : Nat) (v : Int), s.mem.wf = true →
    (s.memWrite a v).mem.wf = true ∧
    (∀ b, (s.memWrite a v).mem.read b = if b = a then v else s.mem.read b) ∧
    (s.memWrite a v).ext = max s.ext (a + 1) ∧
    { s.memWrite a v with mem := s.mem, ext := s.ext } = s

/-- R30. A cell that neither the image nor any instruction has written holds 0: reset gives 0 beyond the image, a step
changes no cell but the one its instruction's destination designates, and every read, of the instruction word, of a
parameter word or of data, gives what the cell holds, on both sides of the extent. -/
def Obligations.NeverWrittenCellsReadZero : Prop :=
  (∀ (w : WordBits) (as : List PortAnswer) (n : Nat) (img : List Int) (a : Nat), img.length ≤ a →
    (resetWith w as n img).mem.read a = 0) ∧
  (∀ (s t : State) (a : Nat), step s = .next t → t.mem.read a ≠ s.mem.read a →
    ∃ i d, fetch s = .ok i ∧
      ((∃ x y, i = .add x y d) ∨ (∃ x y, i = .mul x y d) ∨ (∃ x y, i = .lt x y d) ∨ (∃ x y, i = .eq x y d) ∨
        i = .inp d) ∧ resolveDest s d = .ok a) ∧
  (∀ (s : State) (a e : Nat), s.wordBits.aboveMax a = false → s.mem.read a = 0 →
    readSource { s with ext := e } (.position a) = .ok 0) ∧
  (∀ (s : State) (e k : Nat), k < 4 → s.mem.read (s.pc + k) = 0 → (fetchWords { s with ext := e })[k]? = some 0)

/-- The model's canonical form (log entry 5): memories that read alike at every address are one list. -/
def Obligations.CanonicalMemoriesAreDetermined : Prop :=
  ∀ m m' : Memory, m.wf = true → m'.wf = true → (∀ a, m.read a = m'.read a) → m = m'

/-- R41, R42. The value of a source parameter in each mode, and its faults, the sign being tested first. The spec
decides this itself: D2, D9. -/
def Obligations.SourceParameterValue : Prop :=
  ∀ (s : State) (x : Int),
    readSource s (.immediate x) = .ok x ∧
    (∀ (a : Source) (ea : Int), a = .position x ∧ ea = x ∨ a = .relative x ∧ ea = s.rb + x →
      (ea < 0 → readSource s a = .error .negativeAddress) ∧
      (0 ≤ ea → s.wordBits.aboveMax ea = true → readSource s a = .error .wordOverflow) ∧
      (0 ≤ ea → s.wordBits.aboveMax ea = false → readSource s a = .ok (s.mem.read ea.toNat)))

/-- R41, R43. The address a destination parameter designates, its faults, and that Immediate is rejected in the decode
phase. The spec decides this itself: D2, D8. -/
def Obligations.DestinationParameterAddress : Prop :=
  ∀ (s : State) (x : Int),
    (∀ (d : Dest) (ea : Int), d = .position x ∧ ea = x ∨ d = .relative x ∧ ea = s.rb + x →
      (ea < 0 → resolveDest s d = .error .negativeAddress) ∧
      (0 ≤ ea → s.wordBits.aboveMax ea = true → resolveDest s d = .error .wordOverflow) ∧
      (0 ≤ ea → s.wordBits.aboveMax ea = false → resolveDest s d = .ok ea.toNat)) ∧
    Mode.dest .immediate x = .error .immediateDestination

/-- R39. Parameter `i` of the fetched instruction is the Word at `pc + 1 + i`; where the last lies beyond `WMAX`, the
instruction faults with `WORD_OVERFLOW`. The spec decides this itself: D17, D29. The order of the faults is R66's and
R69's by D11 (log entry 11). -/
def Obligations.ParameterWordsFollowTheInstructionWord : Prop :=
  (∀ (s : State) (i : Instr), fetch s = .ok i →
    i.params.map Prod.snd = (List.range i.opcode.paramCount).map fun k => s.mem.read (s.pc + 1 + k)) ∧
  (∀ (s : State) (i : Instr), 0 < i.opcode.paramCount →
    s.wordBits.aboveMax ((s.pc : Int) + i.opcode.paramCount) = true →
    exec i s = .next (raise .wordOverflow s))

/-- R67, R69 rows 9 to 11. The first parameter, in parameter order, whose effective address is not an address decides
the fault, whether or not the instruction would use its value. The spec decides this itself: D9, D11. The order of
the faults is R66's and R69's by D11 (log entry 11). -/
def Obligations.FirstBadParameterDecidesTheFault : Prop :=
  ∀ (s : State) (i : Instr) (c : FaultCause),
    s.wordBits.aboveMax ((s.pc : Int) + i.opcode.paramCount) = false →
    i.params.findSome? (paramFault s) = some c → exec i s = .next (raise c s)

/-- In a state that meets the invariant, the fetched instruction is well-formed: its parameter words are Words. -/
def Obligations.FetchedInstructionsAreWellFormed : Prop :=
  ∀ (s : State) (i : Instr), CoreInv s → fetch s = .ok i → i.wellFormed s.wordBits = true

/-! ## The instructions -/

/-- R73. ADD writes the exact sum, and faults where it is no Word. The spec decides this itself: D2, D29. The order
of the faults is R66's and R69's by D11 (log entry 11). -/
def Obligations.AddWritesTheSum : Prop := StoresResult .add 1 (fun v0 v1 => v0 + v1) true

/-- R74. MUL writes the exact product, and faults where it is no Word. The spec decides this itself: D2, D29. The
order of the faults is R66's and R69's by D11 (log entry 11). -/
def Obligations.MulWritesTheProduct : Prop := StoresResult .mul 2 (fun v0 v1 => v0 * v1) true

/-- R76. LT writes 1 if the first source is less than the second in the signed order, strictly, else 0. The spec
decides this itself: D29; the number 7 is log entry 10. The order of the faults is R66's and R69's by D11 (log entry
11). -/
def Obligations.LtWritesTheComparison : Prop := StoresResult .lt 7 (fun v0 v1 => if v0 < v1 then 1 else 0) false

/-- R77. EQ writes 1 if the two sources are the same integer, else 0. The spec decides this itself: D29; the number 8
is log entry 10. The order of the faults is R66's and R69's by D11 (log entry 11). -/
def Obligations.EqWritesTheComparison : Prop := StoresResult .eq 8 (fun v0 v1 => if v0 = v1 then 1 else 0) false

/-- R23. One request takes one answer of the environment: the next scripted one, or a free one of which only this is
known, that a value it delivers is a Word. The core's own state is as before. The spec decides this itself: D14, D28;
the script of answers is log entry 3. -/
def Obligations.RequestTakesOneAnswer : Prop :=
  (∀ (s : State) (ans : PortAnswer) (rest : List PortAnswer), s.answers = ans :: rest →
    s.afterRequest = { s with answers := rest } ∧
    ((∀ v, ans = .value v → s.wordBits.inWord v = true) → portAnswer s = ans)) ∧
  (∀ s : State, s.answers = [] → s.afterRequest = { s with draws := s.draws + 1 }) ∧
  (∀ (s : State) (v : Int), portAnswer s = .value v → s.wordBits.inWord v = true)

/-- R78. IN: its encoding, its faults in order, all before the request, and its four outcomes by the port's answer.
The spec decides this itself: D8, D14, D29. The order of the faults is R66's and R69's by D11 (log entry 11); that a
request takes one entry of a script is log entry 3. -/
def Obligations.InTakesTheNextValue : Prop :=
  ∀ (d : Dest) (s : State),
    encode (.inp d) = [((3 + 100 * d.mode.digit : Nat) : Int), d.raw] ∧
    (s.wordBits.aboveMax ((s.pc : Int) + 1) = true → exec (.inp d) s = .next (raise .wordOverflow s)) ∧
    (s.wordBits.aboveMax ((s.pc : Int) + 1) = false →
      (∀ c, resolveDest s d = .error c → exec (.inp d) s = .next (raise c s)) ∧
      (∀ ad, resolveDest s d = .ok ad →
        (s.wordBits.aboveMax ((s.pc : Int) + 2) = true → exec (.inp d) s = .next (raise .wordOverflow s)) ∧
        (s.wordBits.aboveMax ((s.pc : Int) + 2) = false →
          (∀ v, portAnswer s = .value v → exec (.inp d) s =
            .next { s.afterRequest with mem := s.mem.write ad v, ext := max s.ext (ad + 1), pc := s.pc + 2 }) ∧
          (portAnswer s = .wait → exec (.inp d) s = .next s.afterRequest) ∧
          (portAnswer s = .exhausted → exec (.inp d) s = .next (raise .inputExhausted s.afterRequest)) ∧
          (portAnswer s = .closed → exec (.inp d) s = .next { s.afterRequest with status := .inputClosed }))))

/-- R79. OUT: its encoding, its faults in order, and the value it emits, once, at the end of the output trace. The
spec decides this itself: D15, D29. The order of the faults is R66's and R69's by D11 (log entry 11). -/
def Obligations.OutEmitsTheValue : Prop :=
  ∀ (a : Source) (s : State),
    encode (.out a) = [((4 + 100 * a.mode.digit : Nat) : Int), a.raw] ∧
    (s.wordBits.aboveMax ((s.pc : Int) + 1) = true → exec (.out a) s = .next (raise .wordOverflow s)) ∧
    (s.wordBits.aboveMax ((s.pc : Int) + 1) = false →
      (∀ c, readSource s a = .error c → exec (.out a) s = .next (raise c s)) ∧
      (∀ v, readSource s a = .ok v →
        (s.wordBits.aboveMax ((s.pc : Int) + 2) = true → exec (.out a) s = .next (raise .wordOverflow s)) ∧
        (s.wordBits.aboveMax ((s.pc : Int) + 2) = false →
          exec (.out a) s = .next { s with outTrace := s.outTrace ++ [v], pc := s.pc + 2 })))

/-- R80. JT jumps to its second parameter's value when its first is not 0, and falls through otherwise. The spec
decides this itself: D9, D10, D29; the number 5 is log entry 10. The order of the faults is R66's and R69's by D11
(log entry 11). -/
def Obligations.JtJumpsOnNonzero : Prop := Jumps .jt 5 (fun v0 => v0 ≠ 0)

/-- R81. JF jumps to its second parameter's value when its first is 0, and falls through otherwise. The spec decides
this itself: D9, D10, D29; the number 6 is log entry 10. The order of the faults is R66's and R69's by D11 (log entry
11). -/
def Obligations.JfJumpsOnZero : Prop := Jumps .jf 6 (fun v0 => v0 = 0)

/-- R82. ARB: its encoding, its faults in order, and the value added to `rb`, read through the old `rb`. The spec
decides this itself: D2, D29. The order of the faults is R66's and R69's by D11 (log entry 11). -/
def Obligations.ArbAddsToTheRelativeBase : Prop :=
  ∀ (a : Source) (s : State),
    encode (.arb a) = [((9 + 100 * a.mode.digit : Nat) : Int), a.raw] ∧
    (s.wordBits.aboveMax ((s.pc : Int) + 1) = true → exec (.arb a) s = .next (raise .wordOverflow s)) ∧
    (s.wordBits.aboveMax ((s.pc : Int) + 1) = false →
      (∀ c, readSource s a = .error c → exec (.arb a) s = .next (raise c s)) ∧
      (∀ v, readSource s a = .ok v →
        (s.wordBits.aboveMax ((s.pc : Int) + 2) = true → exec (.arb a) s = .next (raise .wordOverflow s)) ∧
        (s.wordBits.aboveMax ((s.pc : Int) + 2) = false → s.wordBits.inWord (s.rb + v) = false →
          exec (.arb a) s = .next (raise .wordOverflow s)) ∧
        (s.wordBits.aboveMax ((s.pc : Int) + 2) = false → s.wordBits.inWord (s.rb + v) = true →
          exec (.arb a) s = .next { s with rb := s.rb + v, pc := s.pc + 2 })))

/-- R83. HLT halts at every state, `pc == WMAX` included, and changes `status` alone; 99 is its one word, a word `99
+ 100*k` with `k > 0` is `RESERVED_MODE_DIGIT`, and after HLT there is no step. The spec decides this itself: D7,
D25. That the step function answers `fault notRunning` where there is no step is the model's choice (log entry 6). -/
def Obligations.HltEndsTheRun : Prop :=
  encode .hlt = [99] ∧
  (∀ (k : Nat) (ps : List Int), 0 < k → decode (((99 + 100 * k : Nat) : Int) :: ps) = .error .reservedModeDigit) ∧
  (∀ s : State, exec .hlt s = .next { s with status := .halted }) ∧
  (∀ s : State, step { s with status := .halted } = .fault .notRunning)

/-! ## Frames -/

/-- What the instructions that write memory (ADD, MUL, LT, EQ, IN) leave unchanged: `rb`, the output trace, the
width, every cell but the one the destination designates; `ext` rises to that cell's address plus 1 or stays; and
unless the instruction faulted or the port closed, `status` and `cause` stay. The spec decides this itself: D4, D12.
That a request takes one entry of a script is log entry 3. -/
def Obligations.StoringInstructionsFrame : Prop :=
  ∀ (i : Instr) (d : Dest) (s t : State),
    ((∃ a b, i = .add a b d) ∨ (∃ a b, i = .mul a b d) ∨ (∃ a b, i = .lt a b d) ∨ (∃ a b, i = .eq a b d) ∨
      i = .inp d) →
    exec i s = .next t →
      t.rb = s.rb ∧ t.outTrace = s.outTrace ∧ t.wordBits = s.wordBits ∧
      (∀ x, resolveDest s d ≠ .ok x → t.mem.read x = s.mem.read x) ∧
      (t.ext = s.ext ∨ ∃ ad, resolveDest s d = .ok ad ∧ t.ext = max s.ext (ad + 1)) ∧
      (t.status = s.status ∧ t.cause = s.cause ∨ (∃ c, t.status = .faulted ∧ t.cause = some c ∧ t.mem = s.mem) ∨
        i = .inp d ∧ t.status = .inputClosed ∧ t.cause = s.cause ∧ t.mem = s.mem) ∧
      (i ≠ .inp d → t.answers = s.answers ∧ t.draws = s.draws)

/-- What the instructions that write no memory (OUT, JT, JF, ARB, HLT) leave unchanged: all of memory and `ext`, the
environment's answers and the width; `rb` except ARB, the output trace except OUT, `pc` for HLT; and unless the
instruction faulted or is HLT, `status` and `cause`. The spec decides this itself: D12, D15, D25. -/
def Obligations.OtherInstructionsFrame : Prop :=
  ∀ (i : Instr) (s t : State),
    ((∃ a, i = .out a) ∨ (∃ a b, i = .jt a b) ∨ (∃ a b, i = .jf a b) ∨ (∃ a, i = .arb a) ∨ i = .hlt) →
    exec i s = .next t →
      t.mem = s.mem ∧ t.ext = s.ext ∧ t.answers = s.answers ∧ t.draws = s.draws ∧ t.wordBits = s.wordBits ∧
      ((∀ a, i ≠ .arb a) → t.rb = s.rb) ∧ ((∀ a, i ≠ .out a) → t.outTrace = s.outTrace) ∧
      (t.status = s.status ∧ t.cause = s.cause ∨
        (∃ c, t.status = .faulted ∧ t.cause = some c ∧ t.rb = s.rb ∧ t.outTrace = s.outTrace ∧ t.pc = s.pc) ∨
        i = .hlt ∧ t.status = .halted ∧ t.cause = s.cause ∧ t.pc = s.pc)

/-! ## Reset and the invariant -/

/-- R26, R104. Reset with an image puts every piece of state at the value of the table of R26, from whatever state
the host resets; no request of the input port is outstanding, so no answer has been taken. The spec decides this
itself: D22; that the answers and the width stay is the model's choice, log entry 15. -/
def Obligations.ResetGivesTheResetValues : Prop :=
  ∀ (s : State) (img : List Int), imageOk s.wordBits img = true →
    (s.hostReset img).pc = 0 ∧ (s.hostReset img).rb = 0 ∧
    (∀ a v, img[a]? = some v → (s.hostReset img).mem.read a = v) ∧
    (∀ a, img.length ≤ a → (s.hostReset img).mem.read a = 0) ∧
    (s.hostReset img).ext = img.length ∧ (s.hostReset img).status = .running ∧ (s.hostReset img).cause = none ∧
    (s.hostReset img).outTrace = [] ∧ (s.hostReset img).answers = s.answers ∧ (s.hostReset img).draws = s.draws ∧
    (s.hostReset img).wordBits = s.wordBits

/-- The state the host's interface starts from is reset with the empty image, the default width of R6 and no scripted
answer (log entries 2 and 3); its first step stops at once. -/
def Obligations.ResetStateIsTheEmptyImage : Prop :=
  State.reset = resetWith (.bits 64) [] 0 [] ∧
  step State.reset = .next { State.reset with status := .endOfStream }

/-- The state after reset with any image the spec admits meets the invariant, `State.reset` among them (log entry 2). -/
def Obligations.ResetMeetsTheInvariant : Prop :=
  CoreInv State.reset ∧
  ∀ (w : WordBits) (as : List PortAnswer) (n : Nat) (img : List Int),
    w.legal = true → imageOk w img = true → CoreInv (resetWith w as n img)

/-- Every step keeps the invariant: the width is legal, `pc` an address, `rb` and every cell a Word, memory canonical
and below `ext`, `ext` bounded, `cause` set exactly when the run faulted, the output trace of Words. The extent and the
cause are the spec's own decisions D4 and D13, the canonical form is log entry 5. -/
def Obligations.EveryStepKeepsTheInvariant : Prop :=
  ∀ s t : State, CoreInv s → step s = .next t → CoreInv t

/-! ## The whole machine -/

/-- R12. `pc` holds an address at all times, and a step that faults, stops or holds leaves it at the instruction that
faulted, stopped or held; nothing is assumed of the address, so no alignment applies. -/
def Obligations.ProgramCounterIsAnAddress : Prop :=
  (∀ s : State, CoreInv s → s.wordBits.aboveMax s.pc = false) ∧
  (∀ s t : State, CoreInv s → step s = .next t → t.wordBits.aboveMax t.pc = false) ∧
  (∀ s t : State, step s = .next t →
    t.status = .faulted ∨ t.status = .endOfStream ∨ t.status = .inputClosed ∨ Held s → t.pc = s.pc)

/-- R13. How `pc` moves: by the instruction's length where it completes and falls through, to the value of the second
parameter on a taken jump, not at all on HLT, a hold, a stop or a fault, and never past `WMAX`. The spec decides this
itself: D10, D29. -/
def Obligations.ProgramCounterMovesByRule : Prop :=
  ∀ (s t : State) (i : Instr), Decodes s → fetch s = .ok i → step s = .next t →
    (t.status = .running → ¬ Held s →
      (∀ a b v0, i = .jt a b → readSource s a = .ok v0 → v0 = 0) →
      (∀ a b v0, i = .jf a b → readSource s a = .ok v0 → v0 ≠ 0) → t.pc = s.pc + i.length) ∧
    (∀ a b v0, t.status = .running → (i = .jt a b ∧ v0 ≠ 0 ∨ i = .jf a b ∧ v0 = 0) → readSource s a = .ok v0 →
      readSource s b = .ok (t.pc : Int)) ∧
    (t.status ≠ .running ∨ Held s → t.pc = s.pc) ∧
    ((∀ a b v0, i = .jt a b → readSource s a = .ok v0 → v0 = 0) →
      (∀ a b v0, i = .jf a b → readSource s a = .ok v0 → v0 ≠ 0) → i ≠ .hlt →
      s.wordBits.aboveMax ((s.pc : Int) + i.length) = true → t.status = .faulted ∧ t.pc = s.pc) ∧
    (∀ a b v0 v1, (i = .jt a b ∧ v0 ≠ 0 ∨ i = .jf a b ∧ v0 = 0) → readSource s a = .ok v0 → readSource s b = .ok v1 →
      v1 < 0 → t.status = .faulted ∧ t.pc = s.pc)

/-- R14. `rb` is 0 after reset, always a Word, and changed by ARB alone, which adds its parameter's value; it is read by
the resolver alone, for a parameter in mode 2, whose address is the sum of `rb` and the parameter word; an instruction
without such a parameter, other than ARB, does the same whatever `rb` holds. -/
def Obligations.RelativeBaseRegister : Prop :=
  (∀ (w : WordBits) (as : List PortAnswer) (n : Nat) (img : List Int), (resetWith w as n img).rb = 0) ∧
  (∀ s t : State, s.wordBits.inWord s.rb = true → step s = .next t → t.wordBits.inWord t.rb = true) ∧
  (∀ s t : State, step s = .next t → t.rb ≠ s.rb →
    ∃ a v, fetch s = .ok (.arb a) ∧ readSource s a = .ok v ∧ t.rb = s.rb + v) ∧
  (∀ (s : State) (x : Int), readSource s (.relative x) = readSource s (.position (s.rb + x)) ∧
    resolveDest s (.relative x) = resolveDest s (.position (s.rb + x))) ∧
  (∀ (i : Instr) (s t : State) (r : Int), (∀ p ∈ i.params, p.1 ≠ .relative) → (∀ a, i ≠ .arb a) →
    exec i s = .next t → exec i { s with rb := r } = .next { t with rb := r })

/-- R17. `ext` never decreases, only an instruction with a destination raises it, and to no more than that cell needs;
past the fetch no instruction reads it: with another extent an instruction does all else the same. The spec decides
this itself: D4, D16. -/
def Obligations.ExtentOnlyGrowsAndOnlyFetchReadsIt : Prop :=
  (∀ s t : State, step s = .next t → s.ext ≤ t.ext ∧
    (t.ext ≠ s.ext → ∃ i d ad, fetch s = .ok i ∧
      ((∃ a b, i = .add a b d) ∨ (∃ a b, i = .mul a b d) ∨ (∃ a b, i = .lt a b d) ∨ (∃ a b, i = .eq a b d) ∨
        i = .inp d) ∧ resolveDest s d = .ok ad ∧ t.ext = ad + 1)) ∧
  (∀ (i : Instr) (s t : State) (e : Nat), exec i s = .next t →
    ∃ t', exec i { s with ext := e } = .next t' ∧ { t' with ext := t.ext } = t)

/-- R24. A step that changes the output trace runs OUT, and adds that instruction's value at its end. The spec decides
this itself: D15. -/
def Obligations.OnlyOutEmits : Prop :=
  ∀ s t : State, step s = .next t → t.outTrace ≠ s.outTrace →
    ∃ a v, fetch s = .ok (.out a) ∧ readSource s a = .ok v ∧ t.outTrace = s.outTrace ++ [v]

/-- R23, R78. Only IN asks the port, at most once a step, and only after its own checks have passed. The spec decides
this itself: D14. That a request takes one entry of a script is log entry 3. -/
def Obligations.OnlyInAsksThePort : Prop :=
  ∀ s t : State, step s = .next t →
    t.answers = s.answers ∧ t.draws = s.draws ∨
    (t.answers = s.afterRequest.answers ∧ t.draws = s.afterRequest.draws ∧
      ∃ d ad npc, fetch s = .ok (.inp d) ∧ checkParams s 1 = .ok () ∧ resolveDest s d = .ok ad ∧
        advance s 2 = .ok npc)

/-- R72. A step depends on the core's state and, for IN alone, on the input port: for every other instruction other
answers to come change nothing. That a request takes one entry of a script is log entry 3. -/
def Obligations.EnvironmentMattersOnlyToIn : Prop :=
  ∀ (s t : State) (as : List PortAnswer) (n : Nat), (∀ d, fetch s ≠ .ok (.inp d)) → step s = .next t →
    step { s with answers := as, draws := n } = .next { t with answers := as, draws := n }

/-- R93. Fault entry: the faulting step changes `status` and `cause` and nothing else of the core; an answer is gone
only where it was `EXHAUSTED`; and there is no further step. The spec decides this itself: D12, D13. That the answer
`EXHAUSTED` is gone afterwards is the model's script (log entry 3): R93 says that no input value is consumed, and
none is; that the step function answers `fault notRunning` where there is no step is the model's choice (log entry
6). -/
def Obligations.FaultsArePrecise : Prop :=
  ∀ s t : State, step s = .next t → t.status = .faulted →
    (∃ c, t.cause = some c ∧
      { raise c s with answers := t.answers, draws := t.draws } = t ∧
      (t.answers = s.answers ∧ t.draws = s.draws ∨
        c = .inputExhausted ∧ portAnswer s = .exhausted ∧ t = raise c s.afterRequest)) ∧
    step t = .fault .notRunning

/-- R71. A stop without a fault changes `status` and nothing else of the core, and there is no further step; only the
answer `CLOSED` itself is gone. The spec decides this itself: D25. That the answer `CLOSED` is gone afterwards is the
model's script (log entry 3): R71 says that no input value is consumed, and none is; that the step function answers
`fault notRunning` where there is no step is the model's choice (log entry 6). -/
def Obligations.StopsChangeOnlyTheStatus : Prop :=
  ∀ s t : State, step s = .next t → t.status = .endOfStream ∨ t.status = .inputClosed →
    (t.status = .endOfStream ∧ t = { s with status := .endOfStream } ∨
      t.status = .inputClosed ∧ portAnswer s = .closed ∧ t = { s.afterRequest with status := .inputClosed }) ∧
    step t = .fault .notRunning

/-- R18, R19, R89. The codes of the five statuses and of the eight causes, and by what each of the ends is entered:
HLT, a fetch at or beyond the extent, an IN answered `CLOSED`, a fault; and from a state without a cause the step
faults exactly when it sets one. The spec decides this itself: D13, D25; that a request takes one entry of a script
is log entry 3. -/
def Obligations.StatusCodesAndEntries : Prop :=
  [Status.running, .halted, .endOfStream, .inputClosed, .faulted].map Status.code = [0, 1, 2, 3, 4] ∧
  [none, some .illegalOpcode, some .badModeDigit, some .reservedModeDigit, some .immediateDestination,
    some .negativeAddress, some .inputExhausted, some .wordOverflow].map causeCode = [0, 1, 2, 3, 4, 5, 6, 7] ∧
  ∀ s t : State, step s = .next t →
    (t.status = .halted ↔ s.pc < s.ext ∧ fetch s = .ok .hlt) ∧
    (t.status = .endOfStream ↔ s.ext ≤ s.pc) ∧
    (t.status = .inputClosed ↔ s.pc < s.ext ∧ portAnswer s = .closed ∧
      ∃ d ad npc, fetch s = .ok (.inp d) ∧ checkParams s 1 = .ok () ∧ resolveDest s d = .ok ad ∧
        advance s 2 = .ok npc) ∧
    (t.status = .faulted ↔ ∃ c, t = raise c s ∨ t = raise c s.afterRequest) ∧
    (s.cause = none → (t.status = .faulted ↔ ∃ c, t.cause = some c))

/-- R90. `INPUT_EXHAUSTED`, code 6, is raised by an IN whose own checks pass and whose request is answered
`EXHAUSTED`, and by nothing else. The spec decides this itself: D14. That a request takes one entry of a script is
log entry 3. -/
def Obligations.InputExhaustedIsRaisedByInAlone : Prop :=
  causeCode (some .inputExhausted) = 6 ∧
  ∀ s t : State, s.cause = none → step s = .next t →
    (t.cause = some .inputExhausted ↔ s.pc < s.ext ∧ portAnswer s = .exhausted ∧
      ∃ d ad npc, fetch s = .ok (.inp d) ∧ checkParams s 1 = .ok () ∧ resolveDest s d = .ok ad ∧
        advance s 2 = .ok npc)

/-- R7, R91. With `WORD_BITS = inf` no step raises `WORD_OVERFLOW`, code 7. The spec decides this itself: D2. -/
def Obligations.UnboundedWordsNeverOverflow : Prop :=
  causeCode (some .wordOverflow) = 7 ∧
  ∀ s t : State, s.wordBits = .inf → s.cause = none → step s = .next t → t.cause ≠ some .wordOverflow

/-- R6. The range of a Word by its width, the bound 55, and the default width 64 of reset. That no step changes the
width is the model's own (log entry 1). The spec decides this itself: D1. -/
def Obligations.WordRangeByWidth : Prop :=
  (∀ (n : Nat) (v : Int),
    (WordBits.bits n).inWord v = true ↔ -((2 ^ (n - 1) : Nat) : Int) ≤ v ∧ v ≤ ((2 ^ (n - 1) : Nat) : Int) - 1) ∧
  (∀ v : Int, WordBits.inf.inWord v = true) ∧
  (∀ n : Nat, (WordBits.bits n).legal = true ↔
    (WordBits.bits n).inWord (2 ^ 53) = true ∧ (WordBits.bits n).inWord (-(2 ^ 53)) = true) ∧
  WordBits.inf.legal = true ∧
  State.reset.wordBits.wmin = some (-9223372036854775808) ∧ State.reset.wordBits.wmax = some 9223372036854775807 ∧
  (∀ s t : State, step s = .next t → t.wordBits = s.wordBits)

/-- R47, R108 (a), (g). The Word that ADD, MUL, LT, EQ or IN stores, wherever its destination designates, is what the
very next step fetches there, as its instruction word or as a parameter word, and what every later step fetches there
until an instruction's destination is that cell again. R47 is derived from R45 and R65 by the spec itself. -/
def Obligations.StoreIsSeenByTheNextFetch : Prop :=
  ∀ (s : State) (i : Instr) (d : Dest) (ad : Nat) (v : Int), s.mem.wf = true → Decodes s → fetch s = .ok i →
    Stores s i d v → resolveDest s d = .ok ad → s.wordBits.aboveMax ((s.pc : Int) + i.length) = false →
    ∃ t, step s = .next t ∧ t.status = .running ∧ t.pc = s.pc + i.length ∧ t.mem.read ad = v ∧
      (∀ k, k < 4 → ad = t.pc + k → (fetchWords t)[k]? = some v) ∧
      (ad = t.pc → step t =
        match decode [v, t.mem.read (t.pc + 1), t.mem.read (t.pc + 2), t.mem.read (t.pc + 3)] with
        | .error c => .next (raise c t)
        | .ok j => exec j t) ∧
      (ad = t.pc → v = 99 → step t = .next { t with status := .halted }) ∧
      (∀ j k, fetch t = .ok j → k < j.opcode.paramCount → ad = t.pc + 1 + k → (j.params[k]?).map Prod.snd = some v) ∧
      (∀ u k, ReachesKeeping ad t u → k < 4 → ad = u.pc + k → (fetchWords u)[k]? = some v)

/-- R110. While the port answers `WAIT`, the core holds at its IN through any number of steps with nothing of its own
changed; any other answer lifts the hold; and a running core always has a step. What each answer does is R78 with D14
and D29; that each `WAIT` takes one entry of a script is the model's choice (log entry 3). -/
def Obligations.HoldLastsUntilAnAnswer : Prop :=
  (∀ (s : State) (d : Dest) (ad k : Nat) (ans : PortAnswer) (rest : List PortAnswer), Decodes s →
    fetch s = .ok (.inp d) → resolveDest s d = .ok ad → s.wordBits.aboveMax ((s.pc : Int) + 2) = false →
    s.answers = List.replicate k .wait ++ ans :: rest →
    core.run k s = .next { s with answers := ans :: rest } ∧
    (∀ v, ans = .value v → s.wordBits.inWord v = true → core.run (k + 1) s =
      .next { s with
        answers := rest, mem := s.mem.write ad v, ext := max s.ext (ad + 1), pc := s.pc + 2 }) ∧
    (ans = .exhausted → core.run (k + 1) s = .next (raise .inputExhausted { s with answers := rest })) ∧
    (ans = .closed → core.run (k + 1) s = .next { s with answers := rest, status := .inputClosed })) ∧
  (∀ s : State, s.status = .running → ∃ t, step s = .next t)

/-- R20, R48. The host reads `status` and `cause`, by their codes, at any time, and `pc`, `rb`, `M`, `ext` after a
stop only. The spec decides this itself: D13, D24. -/
def Obligations.HostReadsTheCoreAfterAStop : Prop :=
  ∀ s : State,
    (hostView s).status = s.status.code ∧ (hostView s).cause = causeCode s.cause ∧
    (s.status = .running → (hostView s).final = none) ∧
    (s.status ≠ .running → (hostView s).final = some ⟨s.pc, s.rb, s.mem, s.ext⟩)

/-- The placing of a table row's bits where the step fetches (log entries 2 and 9): the very next step runs exactly the
instruction the decoder reads from them. -/
def Obligations.PlacedWordIsRunNext : Prop :=
  ∀ (s : State) (nbits w : Nat) (i : Instr), s.mem.wf = true →
    s.wordBits.aboveMax ((s.pc : Int) + 3) = false → decodeTableWord nbits w = some i →
    step (s.withFetchWord nbits w) = exec i (s.withFetchWord nbits w)
end

