-- ==== Sys2Proof/Laws/Decode.lean ====
section
/-! SUPPORT. The small lemmas of the encoding: digits of an encoded instruction word and parameters of a list. -/

namespace Sys2Proof

@[simp] theorem rawAt_cons (w : Int) (ws : List Int) (i : Nat) : rawAt (w :: ws) i = ws.getD i 0 := by
  simp [rawAt, Nat.add_comm 1 i]

/-- A parameter is its mode and its raw word again. -/
@[simp] theorem mode_source (a : Source) : a.mode.source a.raw = a := by cases a <;> rfl

@[simp] theorem mode_dest (d : Dest) : d.mode.dest d.raw = .ok d := by cases d <;> rfl

/-- Every opcode is the row its number selects. -/
@[simp] theorem ofNumber_number (op : Opcode) : Opcode.ofNumber op.number = some op := by cases op <;> rfl

/-- A number that selects a row is that row's number. -/
theorem number_of_ofNumber {k : Nat} {op : Opcode} (h : Opcode.ofNumber k = some op) : op.number = k := by
  have := List.find?_some h
  simpa using this

theorem mode_digit_lt (m : Mode) : m.digit < 3 := by cases m <;> decide

theorem number_lt (op : Opcode) : op.number < 100 := by cases op <;> decide

/-- The opcode field of an instruction word. -/
theorem instrWord_mod (op : Opcode) (a b c : Nat) : (instrWord op a b c).toNat % 100 = op.number := by
  have := number_lt op
  simp only [instrWord, Int.toNat_natCast]
  omega

theorem instrWord_nonneg (op : Opcode) (a b c : Nat) : ¬ instrWord op a b c < 0 := by
  exact Int.not_lt.mpr (Int.natCast_nonneg _)

/-- The mode digits of an instruction word. -/
theorem instrWord_digit (op : Opcode) {a b c : Nat} (ha : a < 10) (hb : b < 10) (hc : c < 10) :
    digit (instrWord op a b c).toNat 2 = a ∧ digit (instrWord op a b c).toNat 3 = b ∧
      digit (instrWord op a b c).toNat 4 = c := by
  have := number_lt op
  simp only [instrWord, Int.toNat_natCast, digit]
  omega

/-- The digits above the mode digits of an instruction word. -/
theorem instrWord_reserved (op : Opcode) {a b c : Nat} (ha : a < 10) (hb : b < 10) (hc : c < 10) :
    (instrWord op a b c).toNat / 10 ^ 5 = 0 ∧ (c = 0 → (instrWord op a b c).toNat / 10 ^ 4 = 0) ∧
      (b = 0 → c = 0 → (instrWord op a b c).toNat / 10 ^ 3 = 0) ∧
      (a = 0 → b = 0 → c = 0 → (instrWord op a b c).toNat / 10 ^ 2 = 0) := by
  have := number_lt op
  simp only [instrWord, Int.toNat_natCast]
  omega

/-- The mode at a digit that is a mode's digit. -/
theorem modeAt_eq {w i : Nat} {m : Mode} (h : digit w (2 + i) = m.digit) : modeAt w i = .ok m := by
  unfold modeAt; rw [h]; cases m <;> rfl

/-- The digit at a mode that was decoded. -/
theorem digit_of_modeAt {w i : Nat} {m : Mode} (h : modeAt w i = .ok m) : digit w (2 + i) = m.digit := by
  unfold modeAt at h
  split at h <;> simp_all [Mode.digit] <;> subst h <;> rfl

end Sys2Proof
end

