-- ==== Sys2Proof/Laws/Range.lean ====
section
/-! SUPPORT. The range of a Word as inequalities. -/

namespace Sys2Proof

/-- For a finite width, `inWord` is the two inequalities of R6. -/
theorem inWord_bits (n : Nat) (v : Int) :
    (WordBits.bits n).inWord v = true ↔ -((2 ^ (n - 1) : Nat) : Int) ≤ v ∧ v ≤ ((2 ^ (n - 1) : Nat) : Int) - 1 := by
  simp [WordBits.inWord, WordBits.belowMin, WordBits.aboveMax, WordBits.wmin, WordBits.wmax]

@[simp] theorem inWord_inf (v : Int) : WordBits.inf.inWord v = true := rfl

@[simp] theorem aboveMax_inf (v : Int) : WordBits.inf.aboveMax v = false := rfl

theorem aboveMax_bits (n : Nat) (v : Int) :
    (WordBits.bits n).aboveMax v = true ↔ ((2 ^ (n - 1) : Nat) : Int) - 1 < v := by
  simp [WordBits.aboveMax, WordBits.wmax]

/-- A Word is not above `WMAX`. -/
theorem not_aboveMax_of_inWord {w : WordBits} {v : Int} (h : w.inWord v = true) : w.aboveMax v = false := by
  simp_all [WordBits.inWord]

/-- The address range is closed downwards. -/
theorem aboveMax_mono {w : WordBits} {u v : Int} (h : w.aboveMax v = false) (huv : u ≤ v) : w.aboveMax u = false := by
  cases w with
  | inf => rfl
  | bits n => simp only [WordBits.aboveMax, WordBits.wmax, decide_eq_false_iff_not] at h ⊢; omega

/-- A legal width holds more than 2^53 on both sides. -/
theorem legal_half {n : Nat} (h : (WordBits.bits n).legal = true) : 2 ^ 54 ≤ 2 ^ (n - 1) := by
  simp only [WordBits.legal, decide_eq_true_eq] at h
  exact Nat.pow_le_pow_right (by omega) (by omega)

/-- Every legal width holds small numbers: 0 and 1 among them, the results of the comparisons. -/
theorem inWord_small {w : WordBits} (h : w.legal = true) {v : Int} (lo : -(2 ^ 53) ≤ v) (hi : v ≤ 2 ^ 53) :
    w.inWord v = true := by
  cases w with
  | inf => rfl
  | bits n =>
    have := legal_half h
    rw [inWord_bits]
    omega

end Sys2Proof
end

