-- ==== Sys2Proof/Laws/State.lean ====
section
/-! SUPPORT. One lemma per field and update of the state: what `raise`, `stop`, `hold`, `memWrite`, `setPc`, `setRb`,
`emit` and `afterRequest` leave in each field. No later proof unfolds a record update. -/

namespace Sys2Proof.Machine

@[simp] theorem raise_pc (c : FaultCause) (s : State) : (raise c s).pc = s.pc := rfl
@[simp] theorem raise_rb (c : FaultCause) (s : State) : (raise c s).rb = s.rb := rfl
@[simp] theorem raise_mem (c : FaultCause) (s : State) : (raise c s).mem = s.mem := rfl
@[simp] theorem raise_ext (c : FaultCause) (s : State) : (raise c s).ext = s.ext := rfl
@[simp] theorem raise_status (c : FaultCause) (s : State) : (raise c s).status = .faulted := rfl
@[simp] theorem raise_cause (c : FaultCause) (s : State) : (raise c s).cause = some c := rfl
@[simp] theorem raise_outTrace (c : FaultCause) (s : State) : (raise c s).outTrace = s.outTrace := rfl
@[simp] theorem raise_answers (c : FaultCause) (s : State) : (raise c s).answers = s.answers := rfl
@[simp] theorem raise_draws (c : FaultCause) (s : State) : (raise c s).draws = s.draws := rfl
@[simp] theorem raise_wordBits (c : FaultCause) (s : State) : (raise c s).wordBits = s.wordBits := rfl

@[simp] theorem stop_pc (st : Status) (s : State) : (stop st s).pc = s.pc := rfl
@[simp] theorem stop_rb (st : Status) (s : State) : (stop st s).rb = s.rb := rfl
@[simp] theorem stop_mem (st : Status) (s : State) : (stop st s).mem = s.mem := rfl
@[simp] theorem stop_ext (st : Status) (s : State) : (stop st s).ext = s.ext := rfl
@[simp] theorem stop_status (st : Status) (s : State) : (stop st s).status = st := rfl
@[simp] theorem stop_cause (st : Status) (s : State) : (stop st s).cause = s.cause := rfl
@[simp] theorem stop_outTrace (st : Status) (s : State) : (stop st s).outTrace = s.outTrace := rfl
@[simp] theorem stop_answers (st : Status) (s : State) : (stop st s).answers = s.answers := rfl
@[simp] theorem stop_draws (st : Status) (s : State) : (stop st s).draws = s.draws := rfl
@[simp] theorem stop_wordBits (st : Status) (s : State) : (stop st s).wordBits = s.wordBits := rfl

@[simp] theorem hold_pc (s : State) : (hold s).pc = s.pc := rfl
@[simp] theorem hold_rb (s : State) : (hold s).rb = s.rb := rfl
@[simp] theorem hold_mem (s : State) : (hold s).mem = s.mem := rfl
@[simp] theorem hold_ext (s : State) : (hold s).ext = s.ext := rfl
@[simp] theorem hold_status (s : State) : (hold s).status = s.status := rfl
@[simp] theorem hold_cause (s : State) : (hold s).cause = s.cause := rfl
@[simp] theorem hold_outTrace (s : State) : (hold s).outTrace = s.outTrace := rfl
@[simp] theorem hold_answers (s : State) : (hold s).answers = s.answers := rfl
@[simp] theorem hold_draws (s : State) : (hold s).draws = s.draws := rfl
@[simp] theorem hold_wordBits (s : State) : (hold s).wordBits = s.wordBits := rfl

@[simp] theorem memWrite_pc (s : State) (a : Nat) (v : Int) : (s.memWrite a v).pc = s.pc := rfl
@[simp] theorem memWrite_rb (s : State) (a : Nat) (v : Int) : (s.memWrite a v).rb = s.rb := rfl
@[simp] theorem memWrite_mem (s : State) (a : Nat) (v : Int) : (s.memWrite a v).mem = s.mem.write a v := rfl
@[simp] theorem memWrite_ext (s : State) (a : Nat) (v : Int) : (s.memWrite a v).ext = max s.ext (a + 1) := rfl
@[simp] theorem memWrite_status (s : State) (a : Nat) (v : Int) : (s.memWrite a v).status = s.status := rfl
@[simp] theorem memWrite_cause (s : State) (a : Nat) (v : Int) : (s.memWrite a v).cause = s.cause := rfl
@[simp] theorem memWrite_outTrace (s : State) (a : Nat) (v : Int) : (s.memWrite a v).outTrace = s.outTrace := rfl
@[simp] theorem memWrite_answers (s : State) (a : Nat) (v : Int) : (s.memWrite a v).answers = s.answers := rfl
@[simp] theorem memWrite_draws (s : State) (a : Nat) (v : Int) : (s.memWrite a v).draws = s.draws := rfl
@[simp] theorem memWrite_wordBits (s : State) (a : Nat) (v : Int) : (s.memWrite a v).wordBits = s.wordBits := rfl

@[simp] theorem setPc_pc (s : State) (a : Nat) : (s.setPc a).pc = a := rfl
@[simp] theorem setPc_rb (s : State) (a : Nat) : (s.setPc a).rb = s.rb := rfl
@[simp] theorem setPc_mem (s : State) (a : Nat) : (s.setPc a).mem = s.mem := rfl
@[simp] theorem setPc_ext (s : State) (a : Nat) : (s.setPc a).ext = s.ext := rfl
@[simp] theorem setPc_status (s : State) (a : Nat) : (s.setPc a).status = s.status := rfl
@[simp] theorem setPc_cause (s : State) (a : Nat) : (s.setPc a).cause = s.cause := rfl
@[simp] theorem setPc_outTrace (s : State) (a : Nat) : (s.setPc a).outTrace = s.outTrace := rfl
@[simp] theorem setPc_answers (s : State) (a : Nat) : (s.setPc a).answers = s.answers := rfl
@[simp] theorem setPc_draws (s : State) (a : Nat) : (s.setPc a).draws = s.draws := rfl
@[simp] theorem setPc_wordBits (s : State) (a : Nat) : (s.setPc a).wordBits = s.wordBits := rfl

@[simp] theorem setRb_pc (s : State) (v : Int) : (s.setRb v).pc = s.pc := rfl
@[simp] theorem setRb_rb (s : State) (v : Int) : (s.setRb v).rb = v := rfl
@[simp] theorem setRb_mem (s : State) (v : Int) : (s.setRb v).mem = s.mem := rfl
@[simp] theorem setRb_ext (s : State) (v : Int) : (s.setRb v).ext = s.ext := rfl
@[simp] theorem setRb_status (s : State) (v : Int) : (s.setRb v).status = s.status := rfl
@[simp] theorem setRb_cause (s : State) (v : Int) : (s.setRb v).cause = s.cause := rfl
@[simp] theorem setRb_outTrace (s : State) (v : Int) : (s.setRb v).outTrace = s.outTrace := rfl
@[simp] theorem setRb_answers (s : State) (v : Int) : (s.setRb v).answers = s.answers := rfl
@[simp] theorem setRb_draws (s : State) (v : Int) : (s.setRb v).draws = s.draws := rfl
@[simp] theorem setRb_wordBits (s : State) (v : Int) : (s.setRb v).wordBits = s.wordBits := rfl

@[simp] theorem emit_pc (s : State) (v : Int) : (s.emit v).pc = s.pc := rfl
@[simp] theorem emit_rb (s : State) (v : Int) : (s.emit v).rb = s.rb := rfl
@[simp] theorem emit_mem (s : State) (v : Int) : (s.emit v).mem = s.mem := rfl
@[simp] theorem emit_ext (s : State) (v : Int) : (s.emit v).ext = s.ext := rfl
@[simp] theorem emit_status (s : State) (v : Int) : (s.emit v).status = s.status := rfl
@[simp] theorem emit_cause (s : State) (v : Int) : (s.emit v).cause = s.cause := rfl
@[simp] theorem emit_outTrace (s : State) (v : Int) : (s.emit v).outTrace = s.outTrace ++ [v] := rfl
@[simp] theorem emit_answers (s : State) (v : Int) : (s.emit v).answers = s.answers := rfl
@[simp] theorem emit_draws (s : State) (v : Int) : (s.emit v).draws = s.draws := rfl
@[simp] theorem emit_wordBits (s : State) (v : Int) : (s.emit v).wordBits = s.wordBits := rfl

@[simp] theorem afterRequest_pc (s : State) : s.afterRequest.pc = s.pc := by
  unfold State.afterRequest; split <;> rfl
@[simp] theorem afterRequest_rb (s : State) : s.afterRequest.rb = s.rb := by
  unfold State.afterRequest; split <;> rfl
@[simp] theorem afterRequest_mem (s : State) : s.afterRequest.mem = s.mem := by
  unfold State.afterRequest; split <;> rfl
@[simp] theorem afterRequest_ext (s : State) : s.afterRequest.ext = s.ext := by
  unfold State.afterRequest; split <;> rfl
@[simp] theorem afterRequest_status (s : State) : s.afterRequest.status = s.status := by
  unfold State.afterRequest; split <;> rfl
@[simp] theorem afterRequest_cause (s : State) : s.afterRequest.cause = s.cause := by
  unfold State.afterRequest; split <;> rfl
@[simp] theorem afterRequest_outTrace (s : State) : s.afterRequest.outTrace = s.outTrace := by
  unfold State.afterRequest; split <;> rfl
@[simp] theorem afterRequest_wordBits (s : State) : s.afterRequest.wordBits = s.wordBits := by
  unfold State.afterRequest; split <;> rfl

/-- A request takes the next scripted answer, if there is one. -/
theorem afterRequest_answers (s : State) : s.afterRequest.answers = s.answers.tail := by
  unfold State.afterRequest; split <;> simp_all

/-- A request draws a free answer when no scripted one is left. -/
theorem afterRequest_draws (s : State) :
    s.afterRequest.draws = if s.answers = [] then s.draws + 1 else s.draws := by
  unfold State.afterRequest; split <;> simp_all

end Sys2Proof.Machine
end

