-- ==== Sys2Proof/Laws/Operands.lean ====
section
/-! SUPPORT. What each operation of the resolver and each shared shape of an instruction can do, said once. -/

namespace Sys2Proof.Machine

/-- A sequence of two computations answers exactly when both do. -/
theorem bind_eq_ok {ε α β : Type} {x : Except ε α} {f : α → Except ε β} {r : β} :
    (x >>= f) = .ok r ↔ ∃ a, x = .ok a ∧ f a = .ok r := by
  cases x <;> simp [bind, Except.bind]

@[simp] theorem ok_bind {ε α β : Type} (a : α) (f : α → Except ε β) : (Except.ok a >>= f) = f a := rfl

@[simp] theorem error_bind {ε α β : Type} (e : ε) (f : α → Except ε β) : (Except.error e >>= f) = .error e := rfl

/-- An address that passes the checks is the effective address, neither negative nor above `WMAX`. -/
theorem checkAddress_eq_ok {s : State} {ea : Int} {a : Nat} :
    checkAddress s ea = .ok a ↔ ea = (a : Int) ∧ s.wordBits.aboveMax (a : Int) = false := by
  unfold checkAddress
  split
  · simp only [reduceCtorEq, false_iff]; omega
  · split
    · next hneg hbig =>
      simp only [reduceCtorEq, false_iff, not_and]
      intro he; subst he; simp [hbig]
    · next hneg hbig =>
      simp only [Except.ok.injEq]
      constructor
      · intro h
        have he : ea = (a : Int) := by omega
        exact ⟨he, by rw [← he]; simpa using hbig⟩
      · rintro ⟨he, _⟩; omega

theorem checkAddress_negative {s : State} {ea : Int} (h : ea < 0) : checkAddress s ea = .error .negativeAddress := by
  simp [checkAddress, h]

theorem checkAddress_tooBig {s : State} {ea : Int} (h : 0 ≤ ea) (hb : s.wordBits.aboveMax ea = true) :
    checkAddress s ea = .error .wordOverflow := by
  simp [checkAddress, Int.not_lt.mpr h, hb]

/-- The value of a source is the literal, or a Word read from memory. -/
theorem readSource_eq_ok {s : State} {a : Source} {v : Int} :
    readSource s a = .ok v ↔
      a = .immediate v ∨
      (∃ x ad, (a = .position x ∧ checkAddress s x = .ok ad ∨ a = .relative x ∧ checkAddress s (s.rb + x) = .ok ad) ∧
        v = s.mem.read ad) := by
  cases a with
  | immediate x => simp [readSource]
  | position x => simp [readSource, bind_eq_ok, pure, Except.pure, eq_comm (b := v)]
  | relative x => simp [readSource, bind_eq_ok, pure, Except.pure, eq_comm (b := v)]

/-- A destination that resolves is an address of the machine. -/
theorem resolveDest_address {s : State} {d : Dest} {ad : Nat} (h : resolveDest s d = .ok ad) :
    s.wordBits.aboveMax (ad : Int) = false := by
  cases d <;> exact (checkAddress_eq_ok.mp h).2

theorem checkParams_eq_ok {s : State} {n : Nat} {u : Unit} :
    checkParams s n = .ok u ↔ s.wordBits.aboveMax ((s.pc : Int) + n) = false := by
  unfold checkParams; split <;> simp_all

theorem advance_eq_ok {s : State} {len npc : Nat} :
    advance s len = .ok npc ↔ npc = s.pc + len ∧ s.wordBits.aboveMax ((s.pc : Int) + len) = false := by
  unfold advance; split <;> simp_all [eq_comm (b := npc)]

theorem fitWord_eq_ok {s : State} {v : Int} {r : Int} :
    fitWord s v = .ok r ↔ r = v ∧ s.wordBits.inWord v = true := by
  unfold fitWord; split <;> simp_all [eq_comm (b := r)]

@[simp] theorem settle_ok (s t : State) : settle s (.ok t) = .next t := rfl

@[simp] theorem settle_error (s : State) (c : FaultCause) : settle s (.error c) = .next (raise c s) := rfl

/-- How an instruction's step ends: completed, or with the fault and nothing else. -/
theorem settle_cases {s t : State} {r : Except FaultCause State} (h : settle s r = .next t) :
    r = .ok t ∨ ∃ c, r = .error c ∧ t = raise c s := by
  cases r with
  | ok u => left; simpa using h
  | error c => right; exact ⟨c, rfl, by simpa using h.symm⟩

/-- An instruction's step always answers a next state. -/
theorem settle_next (s : State) (r : Except FaultCause State) : ∃ t, settle s r = .next t := ⟨_, rfl⟩

theorem bind_eq_error {ε α β : Type} {x : Except ε α} {f : α → Except ε β} {e : ε} :
    (x >>= f) = .error e ↔ x = .error e ∨ ∃ a, x = .ok a ∧ f a = .error e := by
  cases x <;> simp [bind, Except.bind]

/-! ### The faults of the resolve and execute phases -/

/-- The causes the resolver and the range checks raise: `WORD_OVERFLOW` with a finite width only. -/
def RangeFault (s : State) (c : FaultCause) : Prop := c = .negativeAddress ∨ c = .wordOverflow ∧ s.wordBits ≠ .inf

/-- Nothing lies above `WMAX` with `WORD_BITS = inf`. -/
theorem width_ne_inf_of_aboveMax {w : WordBits} {v : Int} (h : w.aboveMax v = true) : w ≠ .inf := by
  rintro rfl; simp at h

theorem checkAddress_error {s : State} {ea : Int} {c : FaultCause} (h : checkAddress s ea = .error c) :
    RangeFault s c := by
  unfold checkAddress at h
  split at h
  · left; simpa using h.symm
  · split at h
    · next hb => right; exact ⟨by simpa using h.symm, width_ne_inf_of_aboveMax hb⟩
    · simp at h

theorem readSource_error {s : State} {a : Source} {c : FaultCause} (h : readSource s a = .error c) :
    RangeFault s c := by
  cases a <;> simp [readSource, bind_eq_error, pure, Except.pure] at h <;> exact checkAddress_error h

theorem resolveDest_error {s : State} {d : Dest} {c : FaultCause} (h : resolveDest s d = .error c) :
    RangeFault s c := by
  cases d <;> exact checkAddress_error h

theorem checkParams_error {s : State} {n : Nat} {c : FaultCause} (h : checkParams s n = .error c) :
    RangeFault s c := by
  unfold checkParams at h
  split at h
  · next hb => exact .inr ⟨by simpa using h.symm, width_ne_inf_of_aboveMax hb⟩
  · simp at h

theorem advance_error {s : State} {len : Nat} {c : FaultCause} (h : advance s len = .error c) : RangeFault s c := by
  unfold advance at h
  split at h
  · next hb => exact .inr ⟨by simpa using h.symm, width_ne_inf_of_aboveMax hb⟩
  · simp at h

theorem fitWord_error {s : State} {v : Int} {c : FaultCause} (h : fitWord s v = .error c) : RangeFault s c := by
  unfold fitWord at h
  split at h
  · simp at h
  · next hw => exact .inr ⟨by simpa using h.symm, by rintro hi; rw [hi] at hw; simp at hw⟩

/-! ### The shared shapes -/

/-- An ADD, MUL, LT or EQ that completed, `rel` relating its source values to the result it wrote. -/
def Stored (rel : Int → Int → Int → Prop) (a b : Source) (d : Dest) (s t : State) : Prop :=
  ∃ v0 v1 ad result, readSource s a = .ok v0 ∧ readSource s b = .ok v1 ∧ resolveDest s d = .ok ad ∧
    s.wordBits.aboveMax ((s.pc : Int) + 3) = false ∧ s.wordBits.aboveMax ((s.pc : Int) + 4) = false ∧
    rel v0 v1 result ∧ t = (s.memWrite ad result).setPc (s.pc + 4)

/-- A JT or JF that completed. -/
def Jumped (taken : Int → Bool) (a b : Source) (s t : State) : Prop :=
  ∃ v0 v1, readSource s a = .ok v0 ∧ readSource s b = .ok v1 ∧
    s.wordBits.aboveMax ((s.pc : Int) + 2) = false ∧
    (taken v0 = true ∧ 0 ≤ v1 ∧ t = s.setPc v1.toNat ∨
     taken v0 = false ∧ s.wordBits.aboveMax ((s.pc : Int) + 3) = false ∧ t = s.setPc (s.pc + 3))

/-- What ADD, MUL, LT and EQ can do. -/
theorem storeResult_cases {compute : Int → Int → Except FaultCause Int} {a b : Source} {d : Dest} {s t : State}
    (hc : ∀ v0 v1 c, compute v0 v1 = .error c → RangeFault s c) (h : storeResult compute a b d s = .next t) :
    Stored (fun v0 v1 r => compute v0 v1 = .ok r) a b d s t ∨ ∃ c, RangeFault s c ∧ t = raise c s := by
  rcases settle_cases h with hok | ⟨c, herr, ht⟩
  · left
    simp only [bind_eq_ok, checkParams_eq_ok, advance_eq_ok, pure, Except.pure, Except.ok.injEq] at hok
    obtain ⟨_, hp, v0, h0, v1, h1, ad, hd, npc, ⟨rfl, hn⟩, r, hr, rfl⟩ := hok
    exact ⟨v0, v1, ad, r, h0, h1, hd, hp, hn, hr, rfl⟩
  · refine .inr ⟨c, ?_, ht⟩
    simp only [bind_eq_error, pure, Except.pure, reduceCtorEq, and_false, exists_false, or_false] at herr
    rcases herr with h | ⟨_, _, h | ⟨v0, _, h | ⟨v1, _, h | ⟨ad, _, h | ⟨npc, _, h⟩⟩⟩⟩⟩
    · exact checkParams_error h
    · exact readSource_error h
    · exact readSource_error h
    · exact resolveDest_error h
    · exact advance_error h
    · exact hc _ _ _ h

/-- What JT and JF can do. -/
theorem jumpWhen_cases {taken : Int → Bool} {a b : Source} {s t : State} (h : jumpWhen taken a b s = .next t) :
    Jumped taken a b s t ∨ ∃ c, RangeFault s c ∧ t = raise c s := by
  rcases settle_cases h with hok | ⟨c, herr, ht⟩
  · left
    simp only [bind_eq_ok, checkParams_eq_ok] at hok
    obtain ⟨_, hp, v0, h0, v1, h1, hrest⟩ := hok
    refine ⟨v0, v1, h0, h1, hp, ?_⟩
    split at hrest
    · next ht =>
      split at hrest
      · simp at hrest
      · next hneg =>
        left
        simp only [pure, Except.pure, Except.ok.injEq] at hrest
        exact ⟨ht, by omega, hrest.symm⟩
    · next ht =>
      right
      simp only [bind_eq_ok, advance_eq_ok, pure, Except.pure, Except.ok.injEq] at hrest
      obtain ⟨npc, ⟨rfl, hn⟩, rfl⟩ := hrest
      exact ⟨by simpa using ht, hn, rfl⟩
  · refine .inr ⟨c, ?_, ht⟩
    simp only [bind_eq_error] at herr
    rcases herr with h | ⟨_, _, h | ⟨v0, _, h | ⟨v1, _, h⟩⟩⟩
    · exact checkParams_error h
    · exact readSource_error h
    · exact readSource_error h
    · split at h
      · split at h
        · left; simpa using h.symm
        · simp [pure, Except.pure] at h
      · simp only [bind_eq_error, pure, Except.pure, reduceCtorEq, and_false, exists_false, or_false] at h
        exact advance_error h

end Sys2Proof.Machine
end

