-- ==== Sys2Proof/Laws/Exec.lean ====
section
/-! SUPPORT. What each instruction and the step can do, said once: the lemmas later proofs cite instead of unfolding
a meaning. -/

namespace Sys2Proof.Machine

/-- The state IN leaves, by the port's answer. -/
theorem input_cases (ad npc : Nat) (s : State) :
    (∃ v, portAnswer s = .value v ∧ input ad npc s = (s.afterRequest.memWrite ad v).setPc npc) ∨
    (portAnswer s = .wait ∧ input ad npc s = s.afterRequest) ∨
    (portAnswer s = .exhausted ∧ input ad npc s = raise .inputExhausted s.afterRequest) ∨
    (portAnswer s = .closed ∧ input ad npc s = stop .inputClosed s.afterRequest) := by
  unfold input
  cases hport : portAnswer s <;> simp [hold]

/-- A value the port delivers is a Word. -/
theorem portAnswer_word {s : State} {v : Int} (h : portAnswer s = .value v) : s.wordBits.inWord v = true := by
  have deliver_word : ∀ a, deliver s.wordBits a = .value v → s.wordBits.inWord v = true := by
    intro a ha
    cases a with
    | value u =>
      simp only [deliver] at ha
      split at ha
      · next hu => exact PortAnswer.value.inj ha ▸ hu
      · simp at ha
    | wait => simp [deliver] at ha
    | exhausted => simp [deliver] at ha
    | closed => simp [deliver] at ha
  unfold portAnswer at h
  split at h <;> exact deliver_word _ h

/-- The instruction's own effect, by instruction: what `s` and `t` are to each other when its step reached the end of
its checks (IN reaches its request there). -/
def Effect (s t : State) : Instr → Prop
  | .add a b d => Stored (fun v0 v1 r => r = v0 + v1 ∧ s.wordBits.inWord r = true) a b d s t
  | .mul a b d => Stored (fun v0 v1 r => r = v0 * v1 ∧ s.wordBits.inWord r = true) a b d s t
  | .lt a b d => Stored (fun v0 v1 r => r = lessThan v0 v1) a b d s t
  | .eq a b d => Stored (fun v0 v1 r => r = equals v0 v1) a b d s t
  | .inp d => ∃ ad, resolveDest s d = .ok ad ∧ s.wordBits.aboveMax ((s.pc : Int) + 1) = false ∧
      s.wordBits.aboveMax ((s.pc : Int) + 2) = false ∧ t = input ad (s.pc + 2) s
  | .out a => ∃ v0, readSource s a = .ok v0 ∧ s.wordBits.aboveMax ((s.pc : Int) + 1) = false ∧
      s.wordBits.aboveMax ((s.pc : Int) + 2) = false ∧ t = (s.emit v0).setPc (s.pc + 2)
  | .jt a b => Jumped isNonzero a b s t
  | .jf a b => Jumped isZero a b s t
  | .arb a => ∃ v0, readSource s a = .ok v0 ∧ s.wordBits.aboveMax ((s.pc : Int) + 1) = false ∧
      s.wordBits.aboveMax ((s.pc : Int) + 2) = false ∧ s.wordBits.inWord (s.rb + v0) = true ∧
      t = (s.setRb (s.rb + v0)).setPc (s.pc + 2)
  | .hlt => t = stop .halted s

/-- What an instruction can do: have its own effect, or raise a fault of the resolve or execute phase. -/
theorem exec_cases {i : Instr} {s t : State} (h : exec i s = .next t) :
    Effect s t i ∨ ∃ c, RangeFault s c ∧ t = raise c s := by
  cases i with
  | add a b d =>
    refine (storeResult_cases (fun _ _ _ => fitWord_error) h).imp_left ?_
    rintro ⟨v0, v1, ad, r, h0, h1, hd, hp, hn, hr, ht⟩
    obtain ⟨rfl, hw⟩ := fitWord_eq_ok.mp hr
    exact ⟨v0, v1, ad, _, h0, h1, hd, hp, hn, ⟨rfl, hw⟩, ht⟩
  | mul a b d =>
    refine (storeResult_cases (fun _ _ _ => fitWord_error) h).imp_left ?_
    rintro ⟨v0, v1, ad, r, h0, h1, hd, hp, hn, hr, ht⟩
    obtain ⟨rfl, hw⟩ := fitWord_eq_ok.mp hr
    exact ⟨v0, v1, ad, _, h0, h1, hd, hp, hn, ⟨rfl, hw⟩, ht⟩
  | lt a b d =>
    refine (storeResult_cases (by simp) h).imp_left ?_
    rintro ⟨v0, v1, ad, r, h0, h1, hd, hp, hn, hr, ht⟩
    exact ⟨v0, v1, ad, r, h0, h1, hd, hp, hn, by simpa using hr.symm, ht⟩
  | eq a b d =>
    refine (storeResult_cases (by simp) h).imp_left ?_
    rintro ⟨v0, v1, ad, r, h0, h1, hd, hp, hn, hr, ht⟩
    exact ⟨v0, v1, ad, r, h0, h1, hd, hp, hn, by simpa using hr.symm, ht⟩
  | inp d =>
    rcases settle_cases h with hok | ⟨c, herr, ht⟩
    · left
      simp only [bind_eq_ok, checkParams_eq_ok, advance_eq_ok, pure, Except.pure, Except.ok.injEq] at hok
      obtain ⟨_, hp, ad, hd, npc, ⟨rfl, hn⟩, rfl⟩ := hok
      exact ⟨ad, hd, hp, hn, rfl⟩
    · refine .inr ⟨c, ?_, ht⟩
      simp only [bind_eq_error, pure, Except.pure, reduceCtorEq, and_false, exists_false, or_false] at herr
      rcases herr with h | ⟨_, _, h | ⟨_, _, h⟩⟩
      · exact checkParams_error h
      · exact resolveDest_error h
      · exact advance_error h
  | out a =>
    rcases settle_cases h with hok | ⟨c, herr, ht⟩
    · left
      simp only [bind_eq_ok, checkParams_eq_ok, advance_eq_ok, pure, Except.pure, Except.ok.injEq] at hok
      obtain ⟨_, hp, v0, h0, npc, ⟨rfl, hn⟩, rfl⟩ := hok
      exact ⟨v0, h0, hp, hn, rfl⟩
    · refine .inr ⟨c, ?_, ht⟩
      simp only [bind_eq_error, pure, Except.pure, reduceCtorEq, and_false, exists_false, or_false] at herr
      rcases herr with h | ⟨_, _, h | ⟨_, _, h⟩⟩
      · exact checkParams_error h
      · exact readSource_error h
      · exact advance_error h
  | jt a b => exact jumpWhen_cases h
  | jf a b => exact jumpWhen_cases h
  | arb a =>
    rcases settle_cases h with hok | ⟨c, herr, ht⟩
    · left
      simp only [bind_eq_ok, checkParams_eq_ok, advance_eq_ok, fitWord_eq_ok, pure, Except.pure,
        Except.ok.injEq] at hok
      obtain ⟨_, hp, v0, h0, npc, ⟨rfl, hn⟩, r, ⟨rfl, hw⟩, rfl⟩ := hok
      exact ⟨v0, h0, hp, hn, hw, rfl⟩
    · refine .inr ⟨c, ?_, ht⟩
      simp only [bind_eq_error, pure, Except.pure, reduceCtorEq, and_false, exists_false, or_false] at herr
      rcases herr with h | ⟨_, _, h | ⟨_, _, h | ⟨_, _, h⟩⟩⟩
      · exact checkParams_error h
      · exact readSource_error h
      · exact advance_error h
      · exact fitWord_error h
  | hlt => exact .inl (Host.Outcome.next.inj h).symm

/-- The decoder raises the four decode causes only. -/
theorem decode_error {ws : List Int} {c : FaultCause} (h : decode ws = .error c) :
    c = .illegalOpcode ∨ c = .badModeDigit ∨ c = .reservedModeDigit ∨ c = .immediateDestination := by
  have hmode : ∀ {w i c'}, modeAt w i = .error c' → c' = .badModeDigit := by
    intro w i c' hm; unfold modeAt at hm; split at hm <;> simp_all
  have hres : ∀ {w n c'}, checkReserved w n = .error c' → c' = .reservedModeDigit := by
    intro w n c' hm; unfold checkReserved at hm; split at hm <;> simp_all
  have hdest : ∀ {m : Mode} {x c'}, m.dest x = .error c' → c' = .immediateDestination := by
    intro m x c' hm; cases m <;> simp_all [Mode.dest]
  unfold decode at h
  simp only at h
  split at h
  · simp_all
  · split at h
    · simp_all
    · next op _ =>
      cases op <;>
        simp only [decodeFields, decodeF3, decodeF2, decodeF1Source, decodeF1Dest, decodeF0, bind_eq_error, pure,
          Except.pure, reduceCtorEq, and_false, exists_false, or_false] at h <;>
        grind

/-- Where a running core inside its extent stands, a step is the decoder's fault or the instruction's meaning. -/
theorem step_running {s : State} (hr : s.status = .running) (he : s.pc < s.ext) :
    step s = match fetch s with
      | .error c => .next (raise c s)
      | .ok i => exec i s := by
  unfold step
  rw [hr]
  exact (if_neg (Nat.not_le.mpr he)).trans (by cases fetch s <;> rfl)

/-- What a step can do: stop at the end of the stream, raise a decode fault, or run the fetched instruction. -/
theorem step_cases {s t : State} (h : step s = .next t) :
    s.status = .running ∧
    (s.ext ≤ s.pc ∧ t = stop .endOfStream s ∨
     s.pc < s.ext ∧ (∃ c, fetch s = .error c ∧ t = raise c s) ∨
     s.pc < s.ext ∧ ∃ i, fetch s = .ok i ∧ exec i s = .next t) := by
  unfold step at h
  split at h
  · next hr =>
    refine ⟨hr, ?_⟩
    split at h
    · next he => exact .inl ⟨he, by simpa using h.symm⟩
    · next he =>
      split at h
      · next c hf => exact .inr (.inl ⟨by omega, c, hf, by simpa using h.symm⟩)
      · next i hf => exact .inr (.inr ⟨by omega, i, hf, h⟩)
  all_goals simp at h

theorem run_zero (s : State) : core.run 0 s = .next s := rfl

/-- A run of one step more is that step, then the rest. -/
theorem run_succ {s t : State} (k : Nat) (h : step s = .next t) : core.run (k + 1) s = core.run k t := by
  have hc : core.step s = .next t := h
  simp only [Host.Core.run]
  rw [hc]

end Sys2Proof.Machine
end

