-- ==== Sys2Proof/Laws/Memory.lean ====
section
/-! SUPPORT. The laws of memory: what a read after a write gives, and that every operation keeps the canonical
form. -/

namespace Sys2Proof.Machine

@[simp] theorem read_nil (a : Nat) : Memory.read [] a = 0 := rfl

theorem read_cons (k : Nat) (v : Int) (m : Memory) (a : Nat) :
    Memory.read ((k, v) :: m) a = if k = a then v else m.read a := rfl

/-- Below its lowest address a canonical memory reads as the default. -/
theorem read_below {m : Memory} {lo a : Nat} (h : m.wfFrom lo = true) (ha : a < lo) : m.read a = 0 := by
  induction m generalizing lo with
  | nil => rfl
  | cons c rest ih =>
    obtain ⟨k, v⟩ := c
    simp only [Memory.wfFrom, Bool.and_eq_true, decide_eq_true_eq] at h
    rw [read_cons, if_neg (by omega)]
    exact ih h.2 (by omega)

theorem wfFrom_mono {m : Memory} {lo hi : Nat} (h : m.wfFrom hi = true) (hle : lo ≤ hi) : m.wfFrom lo = true := by
  cases m with
  | nil => rfl
  | cons c rest =>
    simp only [Memory.wfFrom, Bool.and_eq_true, decide_eq_true_eq] at h ⊢
    exact ⟨⟨by omega, h.1.2⟩, h.2⟩

theorem read_put {m : Memory} {a : Nat} {v : Int} (h : m.read a = 0) (b : Nat) :
    (Memory.put a v m).read b = if b = a then v else m.read b := by
  unfold Memory.put Memory.default
  by_cases hv : v = 0 <;> by_cases hb : b = a <;> simp_all [read_cons, eq_comm]

theorem put_wfFrom {m : Memory} {a lo : Nat} {v : Int} (h : m.wfFrom (a + 1) = true) (hlo : lo ≤ a) :
    (Memory.put a v m).wfFrom lo = true := by
  unfold Memory.put
  split
  · exact wfFrom_mono h (by omega)
  · simp_all [Memory.wfFrom]

/-- A read after a write, in a canonical memory: the written cell gives the value, every other cell is as before. -/
theorem read_write_from {m : Memory} {lo : Nat} (h : m.wfFrom lo = true) (a : Nat) (v : Int) (b : Nat) :
    (m.write a v).read b = if b = a then v else m.read b := by
  induction m generalizing lo with
  | nil => exact read_put rfl b
  | cons c rest ih =>
    obtain ⟨k, u⟩ := c
    have h' := h
    simp only [Memory.wfFrom, Bool.and_eq_true, decide_eq_true_eq] at h
    unfold Memory.write
    split
    · next hlt =>
      have : Memory.wfFrom k ((k, u) :: rest) = true := by simp_all [Memory.wfFrom]
      exact read_put (read_below this hlt) b
    · split
      · next hlt heq =>
        subst heq
        rw [read_put (read_below h.2 (by omega)), read_cons]
        by_cases hb : b = a
        · simp [hb]
        · simp [hb, Ne.symm hb]
      · rw [read_cons, read_cons, ih h.2]
        by_cases hb : k = b
        · subst hb; rw [if_pos rfl, if_pos rfl, if_neg (by omega)]
        · rw [if_neg hb, if_neg hb]

theorem write_wfFrom {m : Memory} {lo a : Nat} (h : m.wfFrom lo = true) (hlo : lo ≤ a) (v : Int) :
    (m.write a v).wfFrom lo = true := by
  induction m generalizing lo with
  | nil => exact put_wfFrom rfl hlo
  | cons c rest ih =>
    obtain ⟨k, u⟩ := c
    have h' := h
    simp only [Memory.wfFrom, Bool.and_eq_true, decide_eq_true_eq] at h
    unfold Memory.write
    split
    · next hlt => exact put_wfFrom (by simp_all [Memory.wfFrom]) hlo
    · split
      · next heq => subst heq; exact put_wfFrom h.2 hlo
      · next hlt hne =>
        simp only [Memory.wfFrom, Bool.and_eq_true, decide_eq_true_eq]
        exact ⟨h.1, ih h.2 (by omega)⟩

/-- The law of memory: read after write. -/
theorem read_write {m : Memory} (h : m.wf = true) (a : Nat) (v : Int) (b : Nat) :
    (m.write a v).read b = if b = a then v else m.read b := read_write_from h a v b

/-- A write keeps the canonical form. -/
theorem write_wf {m : Memory} (h : m.wf = true) (a : Nat) (v : Int) : (m.write a v).wf = true :=
  write_wfFrom h (Nat.zero_le a) v

/-- Whatever the memory's form, a write leaves every other cell as it was. -/
theorem read_write_other (m : Memory) {a b : Nat} (hb : b ≠ a) (v : Int) : (m.write a v).read b = m.read b := by
  have put_other : ∀ m' : Memory, (Memory.put a v m').read b = m'.read b := by
    intro m'
    unfold Memory.put
    split
    · rfl
    · rw [read_cons, if_neg (Ne.symm hb)]
  induction m with
  | nil => exact put_other []
  | cons c rest ih =>
    obtain ⟨k, u⟩ := c
    unfold Memory.write
    split
    · exact put_other _
    · split
      · next heq => subst heq; rw [put_other, read_cons, if_neg (Ne.symm hb)]
      · rw [read_cons, read_cons, ih]

/-- Loading an image keeps the canonical form. -/
theorem load_wf {m : Memory} (h : m.wf = true) (a : Nat) (img : List Int) : (m.load a img).wf = true := by
  induction img generalizing m a with
  | nil => exact h
  | cons v rest ih => exact ih (write_wf h a v) (a + 1)

/-- What a loaded memory reads as: the image's Word inside the image, the Word before it elsewhere. -/
theorem read_load {m : Memory} (h : m.wf = true) (a : Nat) (img : List Int) (b : Nat) :
    (m.load a img).read b = if a ≤ b ∧ b < a + img.length then img.getD (b - a) 0 else m.read b := by
  induction img generalizing m a with
  | nil => rw [if_neg (by simp)]; rfl
  | cons v rest ih =>
    have step : (m.load a (v :: rest)).read b = ((m.write a v).load (a + 1) rest).read b := rfl
    rw [step, ih (write_wf h a v), read_write h]
    rcases Nat.lt_trichotomy b a with hlt | heq | hgt
    · rw [if_neg (by omega), if_neg (by omega), if_neg (by omega)]
    · subst heq; simp
    · rw [if_neg (by omega : ¬b = a)]
      obtain ⟨k, hk⟩ : ∃ k, b - a = k + 1 := ⟨b - a - 1, by omega⟩
      have hk' : b - (a + 1) = k := by omega
      rw [hk, hk', List.getD_cons_succ, List.length_cons]
      by_cases hin : b < a + (rest.length + 1)
      · rw [if_pos (by omega), if_pos (by omega)]
      · rw [if_neg (by omega), if_neg (by omega)]

/-- Every cell of a written memory is the written one or was there before. -/
theorem mem_write {m : Memory} {a : Nat} {v : Int} {c : Nat × Int} (h : c ∈ m.write a v) :
    c = (a, v) ∨ c ∈ m := by
  have mem_put : ∀ m' : Memory, c ∈ Memory.put a v m' → c = (a, v) ∨ c ∈ m' := by
    intro m' h'
    unfold Memory.put at h'
    split at h' <;> simp_all
  induction m with
  | nil => exact mem_put [] h
  | cons d rest ih =>
    obtain ⟨k, u⟩ := d
    unfold Memory.write at h
    split at h
    · exact mem_put _ h
    · split at h
      · rcases mem_put _ h with h' | h'
        · exact .inl h'
        · exact .inr (List.mem_cons_of_mem _ h')
      · rcases List.mem_cons.mp h with h' | h'
        · exact .inr (by simp [h'])
        · rcases ih h' with h'' | h''
          · exact .inl h''
          · exact .inr (List.mem_cons_of_mem _ h'')

/-- What a memory reads as at an address is a cell's value or the default. -/
theorem read_mem_or_default (m : Memory) (a : Nat) : (∃ c ∈ m, c.2 = m.read a) ∨ m.read a = 0 := by
  induction m with
  | nil => exact .inr rfl
  | cons c rest ih =>
    obtain ⟨k, v⟩ := c
    rw [read_cons]
    split
    · exact .inl ⟨(k, v), by simp, rfl⟩
    · rcases ih with ⟨c, hc, he⟩ | h
      · exact .inl ⟨c, List.mem_cons_of_mem _ hc, he⟩
      · exact .inr h

end Sys2Proof.Machine
end

