-- ==== Sys2Proof/Laws/PerInstr.lean ====
section
/-! SUPPORT. The statement made per instruction: an instruction encodes to `len = 1 + n` Words, instruction word
first (`30_encoding.md` R49), and that word is the operation's number plus its mode digits (R54). -/

/-- The encoding of `i` has its length, and its first Word has the operation's number in its opcode field. -/
def Sys2Proof.Laws.EncodedShape.Statement (i : Sys2Proof.Instr) : Prop :=
  (Sys2Proof.encode i).length = i.length ∧ i.params.length = i.opcode.paramCount ∧
    ((Sys2Proof.encode i).headD 0).toNat % 100 = i.opcode.number ∧
    (Sys2Proof.encode i).tail = i.params.map Prod.snd

theorem Sys2Proof.Laws.EncodedShape.add (a b : Sys2Proof.Source) (d : Sys2Proof.Dest) : Sys2Proof.Laws.EncodedShape.Statement (.add a b d) :=
  ⟨rfl, rfl, Sys2Proof.instrWord_mod _ _ _ _, rfl⟩

theorem Sys2Proof.Laws.EncodedShape.mul (a b : Sys2Proof.Source) (d : Sys2Proof.Dest) : Sys2Proof.Laws.EncodedShape.Statement (.mul a b d) :=
  ⟨rfl, rfl, Sys2Proof.instrWord_mod _ _ _ _, rfl⟩

theorem Sys2Proof.Laws.EncodedShape.inp (d : Sys2Proof.Dest) : Sys2Proof.Laws.EncodedShape.Statement (.inp d) :=
  ⟨rfl, rfl, Sys2Proof.instrWord_mod _ _ _ _, rfl⟩

theorem Sys2Proof.Laws.EncodedShape.out (a : Sys2Proof.Source) : Sys2Proof.Laws.EncodedShape.Statement (.out a) :=
  ⟨rfl, rfl, Sys2Proof.instrWord_mod _ _ _ _, rfl⟩

theorem Sys2Proof.Laws.EncodedShape.jt (a b : Sys2Proof.Source) : Sys2Proof.Laws.EncodedShape.Statement (.jt a b) :=
  ⟨rfl, rfl, Sys2Proof.instrWord_mod _ _ _ _, rfl⟩

theorem Sys2Proof.Laws.EncodedShape.jf (a b : Sys2Proof.Source) : Sys2Proof.Laws.EncodedShape.Statement (.jf a b) :=
  ⟨rfl, rfl, Sys2Proof.instrWord_mod _ _ _ _, rfl⟩

theorem Sys2Proof.Laws.EncodedShape.lt (a b : Sys2Proof.Source) (d : Sys2Proof.Dest) : Sys2Proof.Laws.EncodedShape.Statement (.lt a b d) :=
  ⟨rfl, rfl, Sys2Proof.instrWord_mod _ _ _ _, rfl⟩

theorem Sys2Proof.Laws.EncodedShape.eq (a b : Sys2Proof.Source) (d : Sys2Proof.Dest) : Sys2Proof.Laws.EncodedShape.Statement (.eq a b d) :=
  ⟨rfl, rfl, Sys2Proof.instrWord_mod _ _ _ _, rfl⟩

theorem Sys2Proof.Laws.EncodedShape.arb (a : Sys2Proof.Source) : Sys2Proof.Laws.EncodedShape.Statement (.arb a) :=
  ⟨rfl, rfl, Sys2Proof.instrWord_mod _ _ _ _, rfl⟩

theorem Sys2Proof.Laws.EncodedShape.hlt : Sys2Proof.Laws.EncodedShape.Statement .hlt :=
  ⟨rfl, rfl, Sys2Proof.instrWord_mod _ _ _ _, rfl⟩
end

