-- ==== Sys2Proof/Machine/Assembly.lean ====
section
/-! DEFINITION. The spec's assembly notation (`30_encoding.md` R61, R63). Nothing in the machine depends on it: it
turns the notation, already parsed, into an image. Strings are label names only. -/

namespace Sys2Proof

/-- `N` of R61: a signed decimal integer or a label. -/
inductive AsmNum where
  | lit (n : Int)
  | label (name : String)
  deriving DecidableEq, Repr

/-- The three operand forms of R61: `[N]`, `#N`, `[rb+N]`. -/
inductive AsmOperand where
  | position (n : AsmNum)
  | immediate (n : AsmNum)
  | relative (n : AsmNum)
  deriving DecidableEq, Repr

/-- One line: a label, an instruction with its operands in parameter order, or the directive `.word`. -/
inductive AsmLine where
  | label (name : String)
  | instr (op : Opcode) (operands : List AsmOperand)
  | word (ns : List AsmNum)
  deriving DecidableEq, Repr

/-- The mode an operand form fixes. -/
def AsmOperand.mode : AsmOperand → Mode
  | .position _ => .position
  | .immediate _ => .immediate
  | .relative _ => .relative

/-- The number or label an operand form holds. -/
def AsmOperand.num : AsmOperand → AsmNum
  | .position n => n
  | .immediate n => n
  | .relative n => n

/-- How many Words a line assembles to. -/
def AsmLine.size : AsmLine → Nat
  | .label _ => 0
  | .instr _ operands => 1 + operands.length
  | .word ns => ns.length

/-- The address of every label: "the address of the next Word assembled" (R61). -/
def asmLabels (a : Nat) (ls : List AsmLine) : List (String × Nat) :=
  match ls with
  | [] => []
  | .label name :: rest => (name, a) :: asmLabels a rest
  | l :: rest => asmLabels (a + l.size) rest

/-- The value of a number or label; `none` for a label no line declares. Of two lines that declare the same label the
first counts: the model's choice, the spec is silent (log entry 14). -/
def AsmNum.value (labels : List (String × Nat)) : AsmNum → Option Int
  | .lit n => some n
  | .label name => (labels.lookup name).map fun a => (a : Int)

/-- An operand list fits its opcode: the right number, and no Immediate destination ("`d` operands may not use the
`#N` form", R61). -/
def asmFits (op : Opcode) (operands : List AsmOperand) : Bool :=
  decide (operands.length = op.paramCount) &&
    match op.destIndex with
    | none => true
    | some k => decide ((operands.map AsmOperand.mode)[k]? ≠ some .immediate)

/-- The Words of one line. -/
def AsmLine.words (labels : List (String × Nat)) : AsmLine → Option (List Int)
  | .label _ => some []
  | .word ns => ns.mapM (AsmNum.value labels)
  | .instr op operands =>
    if asmFits op operands then
      let d := operands.map fun o => o.mode.digit
      (operands.mapM fun (o : AsmOperand) => o.num.value labels).map fun raws =>
        instrWord op (d.getD 0 0) (d.getD 1 0) (d.getD 2 0) :: raws
    else none

/-- The image of a program: its lines' Words from address 0; `none` where a line is no line of R61. -/
def assemble (ls : List AsmLine) : Option (List Int) :=
  (ls.mapM (AsmLine.words (asmLabels 0 ls))).map List.flatten

end Sys2Proof
end

