-- ==== Sys2Proof/Tests/Slice0.lean ====
section
/-! SUPPORT. The model's own tests. Expected values are those of `95_test_vectors.md` (the vector's id stands in the
docstring) or are worked out by hand from the formats of `30_encoding.md`; and for every obligation with hypotheses,
a state and operands that meet them, clause by clause at the ends of the ranges. -/

namespace Sys2Proof.Tests

open Sys2Proof Sys2Proof.Machine Sys2Proof.Spec

/-! ## Helpers -/

/-- `WMAX` for `WORD_BITS = 64`. -/
def wmax : Nat := 9223372036854775807

/-- A core of width 64 right after reset with an image. -/
def core64 (img : List Int) : State := resetWith (.bits 64) [] 0 img

/-- The same core, whose environment will give these answers. -/
def coreIn (as : List PortAnswer) (img : List Int) : State := resetWith (.bits 64) as 0 img

/-- The same core with `WORD_BITS = inf`. -/
def coreInf (img : List Int) : State := resetWith .inf [] 0 img

/-- A core at `pc` near the top of the address space, the Words `ws` from there, the extent `WMAX + 1`. -/
def high (pc : Nat) (ws : List Int) : State :=
  { core64 [] with pc := pc, ext := wmax + 1, mem := Memory.load [] pc ws }

/-- The state a step or a meaning answers. -/
def after (o : Host.Outcome State Fault Refusal) : Option State :=
  match o with
  | .next t => some t
  | .fault _ => none
  | .refused _ => none

/-! ## Well-formedness: one ill-formed instruction for each check -/

theorem test_wf_add_source0 : (Instr.add (.position 9223372036854775808) (.immediate 0) (.position 0)).wellFormed (.bits 64) = false := by decide
theorem test_wf_add_source1 : (Instr.add (.position 0) (.immediate (-9223372036854775809)) (.position 0)).wellFormed (.bits 64) = false := by decide
theorem test_wf_add_dest : (Instr.add (.position 0) (.immediate 0) (.relative 9223372036854775808)).wellFormed (.bits 64) = false := by decide
theorem test_wf_mul_source0 : (Instr.mul (.relative 9223372036854775808) (.immediate 0) (.position 0)).wellFormed (.bits 64) = false := by decide
theorem test_wf_mul_source1 : (Instr.mul (.position 0) (.position 9223372036854775808) (.position 0)).wellFormed (.bits 64) = false := by decide
theorem test_wf_mul_dest : (Instr.mul (.position 0) (.immediate 0) (.position 9223372036854775808)).wellFormed (.bits 64) = false := by decide
theorem test_wf_inp : (Instr.inp (.position 9223372036854775808)).wellFormed (.bits 64) = false := by decide
theorem test_wf_out : (Instr.out (.immediate 9223372036854775808)).wellFormed (.bits 64) = false := by decide
theorem test_wf_jt_source0 : (Instr.jt (.immediate 9223372036854775808) (.immediate 0)).wellFormed (.bits 64) = false := by decide
theorem test_wf_jt_source1 : (Instr.jt (.immediate 0) (.immediate 9223372036854775808)).wellFormed (.bits 64) = false := by decide
theorem test_wf_jf_source0 : (Instr.jf (.immediate (-9223372036854775809)) (.immediate 0)).wellFormed (.bits 64) = false := by decide
theorem test_wf_jf_source1 : (Instr.jf (.immediate 0) (.relative (-9223372036854775809))).wellFormed (.bits 64) = false := by decide
theorem test_wf_lt : (Instr.lt (.immediate 9223372036854775808) (.immediate 0) (.position 0)).wellFormed (.bits 64) = false ∧
    (Instr.lt (.immediate 0) (.immediate 9223372036854775808) (.position 0)).wellFormed (.bits 64) = false ∧
    (Instr.lt (.immediate 0) (.immediate 0) (.position 9223372036854775808)).wellFormed (.bits 64) = false := by decide
theorem test_wf_eq : (Instr.eq (.immediate 9223372036854775808) (.immediate 0) (.position 0)).wellFormed (.bits 64) = false ∧
    (Instr.eq (.immediate 0) (.immediate 9223372036854775808) (.position 0)).wellFormed (.bits 64) = false ∧
    (Instr.eq (.immediate 0) (.immediate 0) (.position 9223372036854775808)).wellFormed (.bits 64) = false := by decide
theorem test_wf_arb : (Instr.arb (.immediate 9223372036854775808)).wellFormed (.bits 64) = false := by decide
/-- The ends of the range are Words, HLT has nothing to check, and with `inf` every integer is a Word. -/
theorem test_wf_accepts : (Instr.add (.immediate 9223372036854775807) (.immediate (-9223372036854775808)) (.position 0)).wellFormed (.bits 64) = true ∧
    Instr.hlt.wellFormed (.bits 64) = true ∧ (Instr.arb (.immediate 9223372036854775808)).wellFormed .inf = true := by decide

/-! ## Decoding: words from the formats of `30_encoding.md` R54 and the decode rows of `95_test_vectors.md` -/

theorem test_decode_add : decode [1101, 2, 3, 5] = .ok (.add (.immediate 2) (.immediate 3) (.position 5)) := by decide
theorem test_decode_mul : decode [22202, 1, 2, 3] = .ok (.mul (.relative 1) (.relative 2) (.relative 3)) := by decide
theorem test_decode_inp : decode [203, 9] = .ok (.inp (.relative 9)) := by decide
theorem test_decode_out : decode [4, 50] = .ok (.out (.position 50)) := by decide
theorem test_decode_jt : decode [2105, 1, 3] = .ok (.jt (.immediate 1) (.relative 3)) := by decide
theorem test_decode_jf : decode [1206, 1, 2] = .ok (.jf (.relative 1) (.immediate 2)) := by decide
theorem test_decode_lt : decode [21107, -4, 5, -6] = .ok (.lt (.immediate (-4)) (.immediate 5) (.relative (-6))) := by decide
theorem test_decode_eq : decode [20008, 1, 2, 3] = .ok (.eq (.position 1) (.position 2) (.relative 3)) := by decide
theorem test_decode_arb : decode [109, 1] = .ok (.arb (.immediate 1)) := by decide
theorem test_decode_hlt : decode [99] = .ok .hlt := by decide
theorem test_decode_illegal : ∀ w ∈ [0, 10, 98, 100, 1100, 50, -1, -99, -1101, (300 : Int)], decode [w] = .error .illegalOpcode := by decide
theorem test_decode_badMode : ∀ w ∈ [301, 3001, 30001, 404, 309, 1305, 9005, 13001, 130001, (9223372036854775807 : Int)],
    decode [w] = .error .badModeDigit := by decide
theorem test_decode_reserved : ∀ w ∈ [199, 1099, 100001, 1003, 10005, 10006, 20109, 110001, 1103, (9223372036854775799 : Int)],
    decode [w] = .error .reservedModeDigit := by decide
theorem test_decode_immediateDest : ∀ w ∈ [10001, 11101, 10002, 10007, 10008, (103 : Int)], decode [w] = .error .immediateDestination := by decide
theorem test_encode_mul : encode (.mul (.position 16) (.immediate 10) (.position 16)) = [1002, 16, 10, 16] := by decide
/-- The bits of a table row: 64 a Word (log entry 9). 1101 + 2·2^64 + 3·2^128 + 5·2^192. -/
theorem test_decode_tableWord : decodeTableWord 256 (1101 + 2 * 2 ^ 64 + 3 * 2 ^ 128 + 5 * 2 ^ 192) =
    some (.add (.immediate 2) (.immediate 3) (.position 5)) := by decide
theorem test_decode_tableWord_short : decodeTableWord 64 1 = some (.add (.position 0) (.position 0) (.position 0)) := by decide
/-- A countdown program of the spec (P1) in its notation assembles to the image the spec gives. -/
theorem test_assemble : assemble [.label "loop", .instr .out [.position (.label "cnt")],
    .instr .add [.position (.label "cnt"), .immediate (.lit (-1)), .position (.label "cnt")],
    .instr .jt [.position (.label "cnt"), .immediate (.label "loop")], .instr .hlt [],
    .label "cnt", .word [.lit 3]] = some [4, 10, 1001, 10, -1, 10, 1005, 10, 0, 99, 3] := by decide
theorem test_assemble_immediateDest : assemble [.instr .inp [.immediate (.lit 0)]] = none := by decide

/-! ## One step each, from `95_test_vectors.md` -/

/-- A6: the destination is the instruction's own word. -/
theorem test_add_own_word : step (core64 [1, 0, 0, 0, 99]) = .next { core64 [2, 0, 0, 0, 99] with pc := 4 } := rfl
/-- A10: `WMAX + 1` is no Word, nothing is written. -/
theorem test_add_overflow : step (core64 [1101, 9223372036854775807, 1, 5, 99, 0]) =
    .next (raise .wordOverflow (core64 [1101, 9223372036854775807, 1, 5, 99, 0])) := rfl
/-- M2: MUL writes 99 over the word 33. -/
theorem test_mul : step (core64 [1002, 4, 3, 4, 33]) = .next { core64 [1002, 4, 3, 4, 99] with pc := 4 } := rfl
/-- M7: `-1 * WMIN` is `2^63`. -/
theorem test_mul_overflow : step (core64 [1102, -1, -9223372036854775808, 5, 99, 0]) =
    .next (raise .wordOverflow (core64 [1102, -1, -9223372036854775808, 5, 99, 0])) := rfl
/-- L7: not an unsigned compare, and strict (L2). -/
theorem test_lt_signed : step (core64 [1107, 9223372036854775807, -9223372036854775808, 5, 99, 7]) =
    .next { core64 [1107, 9223372036854775807, -9223372036854775808, 5, 99, 0] with pc := 4 } := rfl
/-- L9: the destination is also a source. -/
theorem test_lt_source_dest : step (core64 [1007, 5, 6, 5, 99, 5]) =
    .next { core64 [1007, 5, 6, 5, 99, 1] with pc := 4 } := rfl
/-- E6: the result lands beyond the image, and the extent grows. -/
theorem test_eq_beyond : step (core64 [1108, 0, 0, 1000, 99]) =
    .next { core64 [1108, 0, 0, 1000, 99] with pc := 4, ext := 1001, mem := Memory.write (core64 [1108, 0, 0, 1000, 99]).mem 1000 1 } := rfl
/-- E3: the sign matters. -/
theorem test_eq_sign : step (core64 [1108, -1, 1, 5, 99, 7]) = .next { core64 [1108, -1, 1, 5, 99, 0] with pc := 4 } := rfl
/-- J3: any non-zero Word is true. -/
theorem test_jt_negative_true : step (core64 [1105, -1, 4, 99, 104, 7, 99]) =
    .next { core64 [1105, -1, 4, 99, 104, 7, 99] with pc := 4 } := rfl
/-- J7: the target is resolved though the jump is not taken. -/
theorem test_jt_eager : step (core64 [1005, 0, -1, 99]) = .next (raise .negativeAddress (core64 [1005, 0, -1, 99])) := rfl
/-- K3: a cell never written reads 0, and JF is taken. -/
theorem test_jf_taken : step (core64 [1006, 50, 5, 104, 1, 99]) =
    .next { core64 [1006, 50, 5, 104, 1, 99] with pc := 5 } := rfl
/-- K5: not taken, and the negative immediate is harmless. -/
theorem test_jf_not_taken : step (core64 [1106, 1, -5, 99]) = .next { core64 [1106, 1, -5, 99] with pc := 3 } := rfl
/-- I1: the value lands over the IN's own word. -/
theorem test_in_value : step (coreIn [.value 77] [3, 0, 4, 0, 99]) = .next { core64 [77, 0, 4, 0, 99] with pc := 2 } := rfl
/-- I6: a negative destination faults, and the port is not asked. -/
theorem test_in_negative : step (coreIn [.value 77] [3, -1, 99]) =
    .next (raise .negativeAddress (coreIn [.value 77] [3, -1, 99])) := rfl
/-- O3: emits its own instruction word. -/
theorem test_out_own_word : step (core64 [4, 0, 99]) = .next { core64 [4, 0, 99] with pc := 2, outTrace := [4] } := rfl
/-- T3: the next `pc` is no address, so nothing is emitted. -/
theorem test_out_no_next : step (high (wmax - 1) [104, 5]) = .next (raise .wordOverflow (high (wmax - 1) [104, 5])) := rfl
/-- B3, its second instruction: `ARB [rb+0]` reads `M[4] = 99` through the old `rb = 4`. -/
theorem test_arb_old_rb : step { core64 [109, 4, 209, 0, 99] with pc := 2, rb := 4 } =
    .next { core64 [109, 4, 209, 0, 99] with pc := 4, rb := 103 } := rfl
/-- B6, its second instruction: `WMIN - 1` is no Word. -/
theorem test_arb_overflow : (after (step { core64 [109, -9223372036854775808, 109, -1, 99] with
    pc := 2, rb := -9223372036854775808 })).map State.cause = some (some .wordOverflow) := by decide
/-- T1: HLT at `WMAX` needs no further Word. -/
theorem test_hlt_top : step (high wmax [99]) = .next { high wmax [99] with status := .halted } := rfl
/-- H3. -/
theorem test_hlt_reserved : step (core64 [199]) = .next (raise .reservedModeDigit (core64 [199])) := rfl
/-- T7: the fetch compares with the extent before it reads. -/
theorem test_fetch_extent : step { core64 [] with pc := 10, ext := 10, mem := [(10, 99)] } =
    .next { core64 [] with pc := 10, ext := 10, mem := [(10, 99)], status := .endOfStream } := rfl
/-- A step of the table of R69 on Q6: parameter 0's `WORD_OVERFLOW` comes before parameter 1's `NEGATIVE_ADDRESS`. -/
theorem test_table_order : tableStep { core64 [2201, 1, -9223372036854775808, 0] with rb := 9223372036854775807 } =
    raise .wordOverflow { core64 [2201, 1, -9223372036854775808, 0] with rb := 9223372036854775807 } := by decide

/-! ## Witnesses: concrete states and operands that meet the hypotheses of the obligations -/

theorem witness_UnknownOpcodeIsIllegal : ∀ w ∈ [-1, 0, 10, 98, (100 : Int)],
    Decodes (core64 [w]) ∧ ¬ selectsRow ((core64 [w]).mem.read (core64 [w]).pc) := by
  unfold Decodes selectsRow; decide

theorem witness_UnknownModeDigitIsBad : ∀ w ∈ [301, 30001, 909, (9005 : Int)],
    Decodes (core64 [w]) ∧ selectsRow ((core64 [w]).mem.read (core64 [w]).pc) ∧
      ¬ modesLegal ((core64 [w]).mem.read (core64 [w]).pc) := by
  unfold Decodes selectsRow modesLegal; decide

theorem witness_NonzeroReservedDigitFaults : ∀ w ∈ [199, 1003, 10005, (100001 : Int)],
    Decodes (core64 [w]) ∧ selectsRow ((core64 [w]).mem.read (core64 [w]).pc) ∧
      modesLegal ((core64 [w]).mem.read (core64 [w]).pc) ∧ ¬ reservedZero ((core64 [w]).mem.read (core64 [w]).pc) := by
  unfold Decodes selectsRow modesLegal reservedZero; decide

theorem witness_ImmediateDestinationFaults : ∀ w ∈ [10001, 12208, (103 : Int)],
    Decodes (core64 [w]) ∧ selectsRow ((core64 [w]).mem.read (core64 [w]).pc) ∧
      modesLegal ((core64 [w]).mem.read (core64 [w]).pc) ∧ reservedZero ((core64 [w]).mem.read (core64 [w]).pc) ∧
      immediateDest ((core64 [w]).mem.read (core64 [w]).pc) := by
  unfold Decodes selectsRow modesLegal reservedZero immediateDest; decide

theorem witness_LegalWordsAreExactlyTheTable : Decodes (core64 [0]) ∧ (core64 [0]).mem.read (core64 [0]).pc ∉ legalWords ∧
    Decodes (core64 [22209]) ∧ (core64 [22209]).mem.read (core64 [22209]).pc ∉ legalWords := by
  unfold Decodes; decide

theorem witness_OpcodeFieldAndModeDigits : decode [22202, 1, 2, 3] = .ok (.mul (.relative 1) (.relative 2) (.relative 3)) ∧
    (Instr.mul (.relative 1) (.relative 2) (.relative 3)).params[2]? = some (.relative, 3) ∧
    decode [104, 5] = .ok (.out (.immediate 5)) ∧ (Instr.out (.immediate 5)).params[0]? = some (.immediate, 5) ∧
    decode [4, 5] = .ok (.out (.position 5)) ∧ (Instr.out (.position 5)).params[0]? = some (.position, 5) := by decide

theorem witness_EncodeOfDecode : decode [22202, 1, 2, 3] = .ok (.mul (.relative 1) (.relative 2) (.relative 3)) ∧
    (Instr.mul (.relative 1) (.relative 2) (.relative 3)).length ≤ [(22202 : Int), 1, 2, 3].length ∧
    decode [99] = .ok .hlt ∧ Instr.hlt.length ≤ [(99 : Int)].length := by decide

theorem witness_StepRunsTheDecodedInstruction : (core64 [99]).status = .running ∧ (core64 [99]).pc < (core64 [99]).ext ∧
    decode [(core64 [99]).mem.read 0, (core64 [99]).mem.read 1, (core64 [99]).mem.read 2, (core64 [99]).mem.read 3] = .ok .hlt := by
  decide

theorem witness_StepRunsTheEncodedInstruction : (core64 [104, 5]).status = .running ∧ (core64 [104, 5]).pc < (core64 [104, 5]).ext ∧
    ∀ k v, (encode (.out (.immediate 5)))[k]? = some v → (core64 [104, 5]).mem.read ((core64 [104, 5]).pc + k) = v := by
  refine ⟨rfl, by decide, fun k v h => ?_⟩
  match k, h with
  | 0, h => exact Option.some.inj h
  | 1, h => exact Option.some.inj h

/-- The extent at `pc`, one below it, and one above it (the empty image among them). -/
theorem witness_FetchComparesPcWithTheExtent : (core64 []).status = .running ∧ (core64 []).ext ≤ (core64 []).pc ∧
    (core64 [99]).pc < (core64 [99]).ext ∧ { core64 [99] with pc := 1 }.ext ≤ { core64 [99] with pc := 1 }.pc ∧
    (high wmax [99]).pc < (high wmax [99]).ext := by decide

theorem witness_StepsExistExactlyWhileRunning : ∀ st ∈ [Status.halted, .endOfStream, .inputClosed, .faulted],
    (stop st (core64 [99])).status ≠ .running := by decide

theorem witness_StepIsTheDetectionTable : (core64 [1101, 2, 3, 5]).status = .running ∧ (high wmax [104]).status = .running := by
  decide

theorem witness_MemWriteThenMemRead : (core64 [1, 0, 0, 5]).mem.wf = true ∧ (high wmax [99]).mem.wf = true := by decide

/-- The first address beyond the image, a step that changes a cell, and 0 read at 0 and at `WMAX`. -/
theorem witness_NeverWrittenCellsReadZero : [(1 : Int), 0, 0, 0, 99].length ≤ 5 ∧
    step (core64 [1, 0, 0, 0, 99]) = .next { core64 [2, 0, 0, 0, 99] with pc := 4 } ∧
    (core64 [2, 0, 0, 0, 99]).mem.read 0 ≠ (core64 [1, 0, 0, 0, 99]).mem.read 0 ∧
    (core64 []).wordBits.aboveMax (wmax : Int) = false ∧ (core64 []).mem.read wmax = 0 ∧ (core64 []).mem.read 0 = 0 ∧
    (core64 [4]).mem.read ((core64 [4]).pc + 1) = 0 := ⟨by decide, rfl, by decide, by decide, by decide, by decide, by decide⟩

/-- Written in two orders, and through a cell set back to 0. -/
theorem witness_CanonicalMemoriesAreDetermined :
    (Memory.write (Memory.write [] 7 1) 3 2).wf = true ∧ (Memory.write (Memory.write (Memory.write [] 3 5) 7 1) 3 2).wf = true ∧
    Memory.write (Memory.write [] 7 1) 3 2 = Memory.write (Memory.write (Memory.write [] 3 5) 7 1) 3 2 := by decide

/-- Effective addresses `-1`, `0`, `WMAX` and `WMAX + 1`, each through Position or Relative. -/
theorem witness_SourceParameterValue : readSource (core64 [5]) (.position (-1)) = .error .negativeAddress ∧
    readSource (core64 [5]) (.position 0) = .ok 5 ∧
    readSource { core64 [5] with rb := 9223372036854775806 } (.relative 1) = .ok 0 ∧
    readSource { core64 [5] with rb := 9223372036854775807 } (.relative 1) = .error .wordOverflow ∧
    readSource { core64 [5] with rb := -9223372036854775808 } (.relative (-1)) = .error .negativeAddress := by decide

theorem witness_DestinationParameterAddress : resolveDest (core64 [5]) (.position (-1)) = .error .negativeAddress ∧
    resolveDest (core64 [5]) (.position 0) = .ok 0 ∧
    resolveDest { core64 [5] with rb := 9223372036854775806 } (.relative 1) = .ok wmax ∧
    resolveDest { core64 [5] with rb := 9223372036854775807 } (.relative 1) = .error .wordOverflow := by decide

theorem witness_ParameterWordsFollowTheInstructionWord :
    fetch (core64 [1002, 4, 3, 4, 33]) = .ok (.mul (.position 4) (.immediate 3) (.position 4)) ∧
    0 < (Instr.out (.immediate 0)).opcode.paramCount ∧
    (high wmax [104]).wordBits.aboveMax (((high wmax [104]).pc : Int) + (Instr.out (.immediate 0)).opcode.paramCount) = true := by
  decide

/-- The first parameter, the second after a good first, and the destination after two immediates. -/
theorem witness_FirstBadParameterDecidesTheFault :
    (core64 [1]).wordBits.aboveMax (((core64 [1]).pc : Int) + 3) = false ∧
    (Instr.add (.position (-1)) (.position 9223372036854775808) (.position 0)).params.findSome? (paramFault (core64 [1])) = some .negativeAddress ∧
    (Instr.jt (.immediate 0) (.position (-1))).params.findSome? (paramFault (core64 [1])) = some .negativeAddress ∧
    (Instr.lt (.immediate 0) (.immediate (-1)) (.position 9223372036854775808)).params.findSome? (paramFault (core64 [1])) = some .wordOverflow := by
  decide

/-- The invariant at two states: the image `[99]`, and the same word at `WMAX`. -/
theorem witness_CoreInv : CoreInv (core64 [99]) ∧ CoreInv (high wmax [99]) := by
  have hcell : ∀ (a : Nat) (v : Int) (k : Nat), (a, v) ∈ [(k, (99 : Int))] → a = k ∧ v = 99 := by
    intro a v k h
    simpa using h
  constructor
  · refine ⟨by decide, by decide, by decide, by decide, ?_, ?_, by decide, by decide, by decide⟩ <;>
      (intro a v h; obtain ⟨rfl, rfl⟩ := hcell a v 0 h; decide)
  · refine ⟨by decide, by decide, by decide, by decide, ?_, ?_, by decide, by decide, by decide⟩ <;>
      (intro a v h; obtain ⟨rfl, rfl⟩ := hcell a v wmax h; decide)

theorem witness_FetchedInstructionsAreWellFormed : CoreInv (core64 [99]) ∧ fetch (core64 [99]) = .ok .hlt :=
  ⟨witness_CoreInv.1, by decide⟩

theorem witness_EveryStepKeepsTheInvariant : CoreInv (high wmax [99]) ∧
    step (high wmax [99]) = .next { high wmax [99] with status := .halted } := ⟨witness_CoreInv.2, rfl⟩

/-- AddWritesTheSum, MulWritesTheProduct, LtWritesTheComparison, EqWritesTheComparison (`StoresResult`): the parameter words do not fit; each of the three parameters bad; the next `pc`
does not fit; and all checks passed, with a result outside the range (ADD, MUL) and at its ends. -/
theorem witness_StoresResult :
    (high (wmax - 2) [1101, 0, 0]).wordBits.aboveMax (((high (wmax - 2) [1101, 0, 0]).pc : Int) + 3) = true ∧
    ((core64 []).wordBits.aboveMax (((core64 []).pc : Int) + 3) = false ∧
      readSource (core64 []) (.position (-1)) = .error .negativeAddress ∧
      readSource (core64 []) (.immediate 9223372036854775807) = .ok 9223372036854775807 ∧
      readSource (core64 []) (.position 9223372036854775808) = .error .wordOverflow ∧
      resolveDest (core64 []) (.position (-1)) = .error .negativeAddress ∧
      resolveDest (core64 []) (.position 9223372036854775807) = .ok wmax) ∧
    ((high (wmax - 3) []).wordBits.aboveMax (((high (wmax - 3) []).pc : Int) + 3) = false ∧
      (high (wmax - 3) []).wordBits.aboveMax (((high (wmax - 3) []).pc : Int) + 4) = true ∧
      resolveDest (high (wmax - 3) []) (.position 0) = .ok 0) ∧
    ((high (wmax - 4) []).wordBits.aboveMax (((high (wmax - 4) []).pc : Int) + 4) = false ∧
      (high (wmax - 4) []).wordBits.inWord (9223372036854775807 + 1) = false ∧
      (high (wmax - 4) []).wordBits.inWord (-1 * -9223372036854775808) = false ∧
      (high (wmax - 4) []).wordBits.inWord (9223372036854775807 + 0) = true ∧
      (high (wmax - 4) []).wordBits.inWord (1 * -9223372036854775808) = true) := by decide

theorem witness_RequestTakesOneAnswer :
    (coreIn [.value 9223372036854775807, .closed] []).answers = .value 9223372036854775807 :: [.closed] ∧
    (coreIn [.value 9223372036854775807, .closed] []).wordBits.inWord 9223372036854775807 = true ∧
    (core64 []).answers = [] ∧ portAnswer (coreIn [.value (-5)] []) = .value (-5) := by decide

/-- IN: the parameter word does not fit; a bad destination; the next `pc` does not fit; and the four answers. -/
theorem witness_InTakesTheNextValue : (high wmax [3]).wordBits.aboveMax (((high wmax [3]).pc : Int) + 1) = true ∧
    (high (wmax - 1) [3]).wordBits.aboveMax (((high (wmax - 1) [3]).pc : Int) + 1) = false ∧
    (high (wmax - 1) [3]).wordBits.aboveMax (((high (wmax - 1) [3]).pc : Int) + 2) = true ∧
    resolveDest (high (wmax - 1) [3]) (.position 0) = .ok 0 ∧
    (high (wmax - 2) [3]).wordBits.aboveMax (((high (wmax - 2) [3]).pc : Int) + 2) = false ∧
    resolveDest (high (wmax - 2) [3]) (.position (-1)) = .error .negativeAddress ∧
    portAnswer (coreIn [.value (-9223372036854775808)] [3, 0]) = .value (-9223372036854775808) ∧
    portAnswer (coreIn [.wait] [3, 0]) = .wait ∧ portAnswer (coreIn [.exhausted] [3, 0]) = .exhausted ∧
    portAnswer (coreIn [.closed] [3, 0]) = .closed ∧
    (coreIn [.closed] [3, 0]).wordBits.aboveMax (((coreIn [.closed] [3, 0]).pc : Int) + 2) = false ∧
    resolveDest (coreIn [.closed] [3, 0]) (.position 0) = .ok 0 := by decide

/-- OutEmitsTheValue and ArbAddsToTheRelativeBase: the parameter word does not fit; a bad source; the next `pc` does not fit; the sum of ARB outside the
range and at its end. -/
theorem witness_OutAndArb : (high wmax [104]).wordBits.aboveMax (((high wmax [104]).pc : Int) + 1) = true ∧
    (high (wmax - 1) [104]).wordBits.aboveMax (((high (wmax - 1) [104]).pc : Int) + 1) = false ∧
    (high (wmax - 1) [104]).wordBits.aboveMax (((high (wmax - 1) [104]).pc : Int) + 2) = true ∧
    readSource (high (wmax - 1) [104]) (.position (-1)) = .error .negativeAddress ∧
    readSource (high (wmax - 1) [104]) (.immediate 1) = .ok 1 ∧
    (high (wmax - 2) [104]).wordBits.aboveMax (((high (wmax - 2) [104]).pc : Int) + 2) = false ∧
    { core64 [] with rb := 9223372036854775807 }.wordBits.inWord (9223372036854775807 + 1) = false ∧
    { core64 [] with rb := 9223372036854775806 }.wordBits.inWord (9223372036854775806 + 1) = true := by decide

/-- JtJumpsOnNonzero and JfJumpsOnZero (`Jumps`): the parameter words do not fit; each parameter bad; taken to `-1` and to `0`; not taken where `pc + 3`
is `WMAX + 1` and where it is `WMAX`. -/
theorem witness_Jumps : (high (wmax - 1) [1105, 1]).wordBits.aboveMax (((high (wmax - 1) [1105, 1]).pc : Int) + 2) = true ∧
    (high (wmax - 2) [1105]).wordBits.aboveMax (((high (wmax - 2) [1105]).pc : Int) + 2) = false ∧
    (high (wmax - 2) [1105]).wordBits.aboveMax (((high (wmax - 2) [1105]).pc : Int) + 3) = true ∧
    (high (wmax - 3) [1105]).wordBits.aboveMax (((high (wmax - 3) [1105]).pc : Int) + 3) = false ∧
    readSource (high (wmax - 2) []) (.position (-1)) = .error .negativeAddress ∧
    readSource (high (wmax - 2) []) (.immediate 1) = .ok 1 ∧ readSource (high (wmax - 2) []) (.immediate 0) = .ok 0 ∧
    readSource (high (wmax - 2) []) (.immediate (-1)) = .ok (-1) ∧ (1 : Int) ≠ 0 ∧ ¬ ((0 : Int) ≠ 0) ∧ (-1 : Int) < 0 := by
  decide

theorem witness_HltEndsTheRun : (0 : Nat) < 1 ∧ decode [199] = .error .reservedModeDigit := by decide

/-- A storing instruction that completes, one that faults, and an IN at a closed port. -/
theorem witness_StoringInstructionsFrame :
    exec (.add (.immediate 2) (.immediate 3) (.position 5)) (core64 [0]) =
      .next { core64 [0, 0, 0, 0, 0, 5] with pc := 4 } ∧
    exec (.mul (.position (-1)) (.immediate 3) (.position 5)) (core64 [0]) = .next (raise .negativeAddress (core64 [0])) ∧
    exec (.inp (.position 5)) (coreIn [.closed] [0]) = .next { core64 [0] with status := .inputClosed } :=
  ⟨rfl, rfl, rfl⟩

theorem witness_OtherInstructionsFrame :
    exec (.out (.immediate 2)) (core64 [0]) = .next { core64 [0] with pc := 2, outTrace := [2] } ∧
    exec (.arb (.position (-1))) (core64 [0]) = .next (raise .negativeAddress (core64 [0])) ∧
    exec .hlt (core64 [0]) = .next { core64 [0] with status := .halted } := ⟨rfl, rfl, rfl⟩

theorem witness_ResetGivesTheResetValues : imageOk (core64 []).wordBits [] = true ∧
    imageOk (core64 []).wordBits [9223372036854775807, -9223372036854775808, 0] = true := by decide

theorem witness_ResetMeetsTheInvariant : (WordBits.bits 55).legal = true ∧ imageOk (.bits 55) [18014398509481983] = true ∧
    WordBits.inf.legal = true ∧ imageOk .inf [9223372036854775808] = true := by decide

/-- A step in the invariant, and one of each end that leaves `pc`: a fault, the two stops, a hold. -/
theorem witness_ProgramCounterIsAnAddress : CoreInv (high wmax [99]) ∧
    step (high wmax [99]) = .next { high wmax [99] with status := .halted } ∧
    step (core64 [0]) = .next (raise .illegalOpcode (core64 [0])) ∧
    step (core64 []) = .next (stop .endOfStream (core64 [])) ∧
    step (coreIn [.closed] [3, 0]) = .next (stop .inputClosed (core64 [3, 0])) ∧ Held (coreIn [.wait] [3, 0]) :=
  ⟨witness_CoreInv.2, rfl, rfl, rfl, rfl, rfl, by decide, rfl, .position 0, 0, 2, by decide, by decide, by decide, by decide⟩

/-- A completion, a taken JT and a taken JF, a hold, a halt, an advance past `WMAX`, a negative target. -/
theorem witness_ProgramCounterMovesByRule :
    (Decodes (core64 [104, 5]) ∧ fetch (core64 [104, 5]) = .ok (.out (.immediate 5)) ∧
      step (core64 [104, 5]) = .next { core64 [104, 5] with pc := 2, outTrace := [5] }) ∧
    (Decodes (core64 [1105, 1, 0]) ∧ fetch (core64 [1105, 1, 0]) = .ok (.jt (.immediate 1) (.immediate 0)) ∧
      step (core64 [1105, 1, 0]) = .next (core64 [1105, 1, 0])) ∧
    (Decodes (core64 [1106, 0, 7]) ∧ fetch (core64 [1106, 0, 7]) = .ok (.jf (.immediate 0) (.immediate 7)) ∧
      step (core64 [1106, 0, 7]) = .next { core64 [1106, 0, 7] with pc := 7 }) ∧
    (Decodes (coreIn [.wait] [3, 0]) ∧ fetch (coreIn [.wait] [3, 0]) = .ok (.inp (.position 0)) ∧
      step (coreIn [.wait] [3, 0]) = .next (core64 [3, 0])) ∧
    (Decodes (high wmax [99]) ∧ fetch (high wmax [99]) = .ok .hlt ∧
      step (high wmax [99]) = .next { high wmax [99] with status := .halted }) ∧
    (Decodes (high (wmax - 2) [1105, 0, 0]) ∧
      fetch (high (wmax - 2) [1105, 0, 0]) = .ok (.jt (.immediate 0) (.immediate 0)) ∧
      step (high (wmax - 2) [1105, 0, 0]) = .next (raise .wordOverflow (high (wmax - 2) [1105, 0, 0]))) ∧
    (Decodes (core64 [1105, 1, -1]) ∧ fetch (core64 [1105, 1, -1]) = .ok (.jt (.immediate 1) (.immediate (-1))) ∧
      step (core64 [1105, 1, -1]) = .next (raise .negativeAddress (core64 [1105, 1, -1]))) := by
  refine ⟨⟨?_, by decide, rfl⟩, ⟨?_, by decide, rfl⟩, ⟨?_, by decide, rfl⟩, ⟨?_, by decide, rfl⟩, ⟨?_, by decide, rfl⟩,
    ⟨?_, by decide, rfl⟩, ⟨?_, by decide, rfl⟩⟩ <;> (unfold Decodes; decide)

/-- The held state of the fourth line above. -/
theorem witness_Held : Held (coreIn [.wait] [3, 0]) :=
  ⟨rfl, by decide, rfl, .position 0, 0, 2, by decide, by decide, by decide, by decide⟩

theorem witness_RelativeBaseRegister : (core64 [109, 5]).wordBits.inWord (core64 [109, 5]).rb = true ∧
    step (core64 [109, 5]) = .next { core64 [109, 5] with pc := 2, rb := 5 } ∧
    { core64 [109, 5] with pc := 2, rb := 5 }.rb ≠ (core64 [109, 5]).rb ∧
    (∀ p ∈ (Instr.out (.immediate 2)).params, p.1 ≠ .relative) ∧ (∀ a, Instr.out (.immediate 2) ≠ .arb a) ∧
    exec (.out (.immediate 2)) (core64 [0]) = .next { core64 [0] with pc := 2, outTrace := [2] } :=
  ⟨by decide, rfl, by decide, by decide, fun _ h => Instr.noConfusion h, rfl⟩

/-- A store that raises the extent, to `WMAX + 1`, and the same with another extent. -/
theorem witness_ExtentOnlyGrowsAndOnlyFetchReadsIt :
    step (core64 [1101, 1, 1, 9223372036854775807]) =
      .next { core64 [1101, 1, 1, 9223372036854775807] with
        pc := 4, ext := wmax + 1, mem := Memory.write (core64 [1101, 1, 1, 9223372036854775807]).mem wmax 2 } ∧
    exec .hlt (core64 [99]) = .next { core64 [99] with status := .halted } := ⟨rfl, rfl⟩

theorem witness_OnlyOutEmits : step (core64 [104, 5]) = .next { core64 [104, 5] with pc := 2, outTrace := [5] } ∧
    { core64 [104, 5] with pc := 2, outTrace := [5] }.outTrace ≠ (core64 [104, 5]).outTrace := ⟨rfl, by decide⟩

theorem witness_OnlyInAsksThePort : step (coreIn [.wait] [3, 0]) = .next (core64 [3, 0]) ∧
    (core64 [3, 0]).answers ≠ (coreIn [.wait] [3, 0]).answers := ⟨rfl, by decide⟩

theorem witness_EnvironmentMattersOnlyToIn : (∀ d, fetch (core64 [104, 5]) ≠ .ok (.inp d)) ∧
    step (core64 [104, 5]) = .next { core64 [104, 5] with pc := 2, outTrace := [5] } := by
  refine ⟨fun d h => ?_, rfl⟩
  have hf : fetch (core64 [104, 5]) = .ok (.out (.immediate 5)) := by decide
  rw [hf] at h
  cases h

/-- A fault that took no answer, and the one that did. -/
theorem witness_FaultsArePrecise : step (core64 [0]) = .next (raise .illegalOpcode (core64 [0])) ∧
    (raise .illegalOpcode (core64 [0])).status = .faulted ∧
    step (coreIn [.exhausted] [3, 0]) = .next (raise .inputExhausted (core64 [3, 0])) ∧
    (raise .inputExhausted (core64 [3, 0])).status = .faulted := ⟨rfl, rfl, rfl, rfl⟩

theorem witness_StopsChangeOnlyTheStatus : step (core64 []) = .next (stop .endOfStream (core64 [])) ∧
    (stop .endOfStream (core64 [])).status = .endOfStream ∧
    step (coreIn [.closed] [3, 0]) = .next (stop .inputClosed (core64 [3, 0])) ∧
    (stop .inputClosed (core64 [3, 0])).status = .inputClosed := ⟨rfl, rfl, rfl, rfl⟩

theorem witness_StatusCodesAndEntries : step (core64 [99]) = .next (stop .halted (core64 [99])) ∧
    step (core64 []) = .next (stop .endOfStream (core64 [])) ∧
    step (coreIn [.closed] [3, 0]) = .next (stop .inputClosed (core64 [3, 0])) ∧
    step (core64 [0]) = .next (raise .illegalOpcode (core64 [0])) := ⟨rfl, rfl, rfl, rfl⟩

theorem witness_InputExhaustedIsRaisedByInAlone : (coreIn [.exhausted] [3, 0]).cause = none ∧
    step (coreIn [.exhausted] [3, 0]) = .next (raise .inputExhausted (core64 [3, 0])) := ⟨rfl, rfl⟩

/-- A10i: the exact sum `2^63`. -/
theorem witness_UnboundedWordsNeverOverflow : (coreInf [1101, 9223372036854775807, 1, 5, 99, 0]).wordBits = .inf ∧
    (coreInf [1101, 9223372036854775807, 1, 5, 99, 0]).cause = none ∧
    step (coreInf [1101, 9223372036854775807, 1, 5, 99, 0]) =
      .next { coreInf [1101, 9223372036854775807, 1, 5, 99, 9223372036854775808] with pc := 4 } := ⟨rfl, rfl, rfl⟩

/-- The ends of the 64-bit range, and the widths 54 and 55 about the bound. -/
theorem witness_WordRangeByWidth : (WordBits.bits 64).inWord 9223372036854775807 = true ∧
    (WordBits.bits 64).inWord 9223372036854775808 = false ∧ (WordBits.bits 64).inWord (-9223372036854775808) = true ∧
    (WordBits.bits 64).inWord (-9223372036854775809) = false ∧ (WordBits.bits 55).legal = true ∧
    (WordBits.bits 54).inWord (2 ^ 53) = false ∧ (WordBits.bits 54).legal = false ∧
    (after (step (core64 [99]))).isSome = true := by decide

/-- H4, M2, I8 (the next instruction word), I9 (a parameter word of the next instruction), and LT and EQ that store 1 and
0 there; each with its stored Word. -/
theorem witness_StoreIsSeenByTheNextFetch :
    Stores (core64 [1101, 0, 99, 4, 0]) (.add (.immediate 0) (.immediate 99) (.position 4)) (.position 4) 99 ∧
    Stores (core64 [1002, 4, 3, 4, 33]) (.mul (.position 4) (.immediate 3) (.position 4)) (.position 4) 99 ∧
    Stores (core64 [1107, 0, 1, 4]) (.lt (.immediate 0) (.immediate 1) (.position 4)) (.position 4) 1 ∧
    Stores (core64 [1108, 0, 1, 4]) (.eq (.immediate 0) (.immediate 1) (.position 4)) (.position 4) 0 ∧
    Stores (coreIn [.value 99] [3, 2, 0]) (.inp (.position 2)) (.position 2) 99 ∧
    Stores (coreIn [.value 42] [3, 3, 104, 0, 99]) (.inp (.position 3)) (.position 3) 42 :=
  ⟨.inl ⟨_, _, 0, 99, rfl, rfl, .inl ⟨rfl, rfl, rfl⟩⟩, .inl ⟨_, _, 33, 3, rfl, rfl, .inr (.inl ⟨rfl, rfl, rfl⟩)⟩,
    .inl ⟨_, _, 0, 1, rfl, rfl, .inr (.inr (.inl ⟨rfl, rfl⟩))⟩, .inl ⟨_, _, 0, 1, rfl, rfl, .inr (.inr (.inr ⟨rfl, rfl⟩))⟩,
    .inr ⟨rfl, rfl⟩, .inr ⟨rfl, rfl⟩⟩

/-- The other hypotheses of the same statement at H4 and I9, the next instruction of I9, and the last place before the
top of the address space. -/
theorem witness_StoreIsSeenByTheNextFetch_state : (core64 [1101, 0, 99, 4, 0]).mem.wf = true ∧
    (core64 [1101, 0, 99, 4, 0]).pc < (core64 [1101, 0, 99, 4, 0]).ext ∧
    fetch (core64 [1101, 0, 99, 4, 0]) = .ok (.add (.immediate 0) (.immediate 99) (.position 4)) ∧
    resolveDest (core64 [1101, 0, 99, 4, 0]) (.position 4) = .ok 4 ∧
    (core64 [1101, 0, 99, 4, 0]).wordBits.aboveMax (((core64 [1101, 0, 99, 4, 0]).pc : Int) + 4) = false ∧
    fetch (coreIn [.value 42] [3, 3, 104, 0, 99]) = .ok (.inp (.position 3)) ∧
    resolveDest (coreIn [.value 42] [3, 3, 104, 0, 99]) (.position 3) = .ok (2 + 1 + 0) ∧
    fetch { core64 [3, 3, 104, 42, 99] with pc := 2 } = .ok (.out (.immediate 42)) ∧
    0 < (Instr.out (.immediate 42)).opcode.paramCount ∧
    (high (wmax - 4) [1101]).wordBits.aboveMax (((high (wmax - 4) [1101]).pc : Int) + 4) = false := by decide

/-- A step that keeps the cell 4. -/
theorem witness_ReachesKeeping : ReachesKeeping 4 (core64 [104, 5, 104, 6, 99]) { core64 [104, 5, 104, 6, 99] with pc := 2, outTrace := [5] } := by
  refine .tail .refl rfl (fun i d hf hd => ?_)
  have hout : fetch (core64 [104, 5, 104, 6, 99]) = .ok (.out (.immediate 5)) := by decide
  rw [hout] at hf
  cases hf
  cases hd

/-- I4: two holds, then the value; and a hold ended by each of the other answers. -/
theorem witness_HoldLastsUntilAnAnswer : Decodes (coreIn [.wait, .wait, .value (-5)] [3, 5, 4, 5, 99, 0]) ∧
    fetch (coreIn [.wait, .wait, .value (-5)] [3, 5, 4, 5, 99, 0]) = .ok (.inp (.position 5)) ∧
    resolveDest (coreIn [.wait, .wait, .value (-5)] [3, 5, 4, 5, 99, 0]) (.position 5) = .ok 5 ∧
    (coreIn [.wait, .wait, .value (-5)] [3, 5, 4, 5, 99, 0]).wordBits.aboveMax
      (((coreIn [.wait, .wait, .value (-5)] [3, 5, 4, 5, 99, 0]).pc : Int) + 2) = false ∧
    (WordBits.bits 64).inWord (-5) = true ∧
    (coreIn [.wait, .wait, .value (-5)] [3, 5, 4, 5, 99, 0]).answers = List.replicate 2 .wait ++ .value (-5) :: [] ∧
    (coreIn [.exhausted] [3, 5]).answers = List.replicate 0 .wait ++ .exhausted :: [] ∧
    (coreIn [.wait, .closed] [3, 5]).answers = List.replicate 1 .wait ++ .closed :: [] := by
  refine ⟨?_, by decide, by decide, by decide, by decide, by decide, by decide, by decide⟩
  unfold Decodes; decide

theorem witness_HostReadsTheCoreAfterAStop : (core64 [99]).status = .running ∧ (stop .halted (core64 [99])).status ≠ .running := by
  decide

/-- At reset, and at the highest `pc` with room for four Words. -/
theorem witness_PlacedWordIsRunNext : State.reset.mem.wf = true ∧
    State.reset.wordBits.aboveMax ((State.reset.pc : Int) + 3) = false ∧ (high (wmax - 3) []).mem.wf = true ∧
    (high (wmax - 3) []).wordBits.aboveMax (((high (wmax - 3) []).pc : Int) + 3) = false ∧ decodeTableWord 64 99 = some .hlt := by
  decide

end Sys2Proof.Tests
end

section
/-! PROOFS. The registers `pc` and `rb` (`10_state.md` R12, R14): which words an instruction's parameters are, what a
step does to the two registers and the width, and that an instruction without a mode-2 parameter is blind to `rb`. -/

namespace Sys2Proof.Machine

/-! ### The parameter words of a decoded instruction -/

@[simp] theorem source_raw (m : Mode) (x : Int) : (m.source x).raw = x := by cases m <;> rfl

/-- A destination keeps its parameter word. -/
theorem raw_of_dest {m : Mode} {x : Int} {d : Dest} (h : m.dest x = .ok d) : d.raw = x := by
  cases m with
  | position => exact Except.ok.inj h ▸ rfl
  | immediate => simp [Mode.dest] at h
  | relative => exact Except.ok.inj h ▸ rfl

theorem decodeF3_ok {mk : Source → Source → Dest → Instr} {w : Nat} {ws : List Int} {i : Instr}
    (h : decodeF3 mk w ws = .ok i) :
    ∃ a b d, i = mk a b d ∧ a.raw = rawAt ws 0 ∧ b.raw = rawAt ws 1 ∧ d.raw = rawAt ws 2 := by
  simp only [decodeF3, bind_eq_ok, pure, Except.pure, Except.ok.injEq] at h
  obtain ⟨m0, _, m1, _, m2, _, _, _, d, hd, rfl⟩ := h
  exact ⟨_, _, d, rfl, source_raw .., source_raw .., raw_of_dest hd⟩

theorem decodeF2_ok {mk : Source → Source → Instr} {w : Nat} {ws : List Int} {i : Instr}
    (h : decodeF2 mk w ws = .ok i) : ∃ a b, i = mk a b ∧ a.raw = rawAt ws 0 ∧ b.raw = rawAt ws 1 := by
  simp only [decodeF2, bind_eq_ok, pure, Except.pure, Except.ok.injEq] at h
  obtain ⟨m0, _, m1, _, _, _, rfl⟩ := h
  exact ⟨_, _, rfl, source_raw .., source_raw ..⟩

theorem decodeF1Source_ok {mk : Source → Instr} {w : Nat} {ws : List Int} {i : Instr}
    (h : decodeF1Source mk w ws = .ok i) : ∃ a, i = mk a ∧ a.raw = rawAt ws 0 := by
  simp only [decodeF1Source, bind_eq_ok, pure, Except.pure, Except.ok.injEq] at h
  obtain ⟨m0, _, _, _, rfl⟩ := h
  exact ⟨_, rfl, source_raw ..⟩

theorem decodeF1Dest_ok {mk : Dest → Instr} {w : Nat} {ws : List Int} {i : Instr}
    (h : decodeF1Dest mk w ws = .ok i) : ∃ d, i = mk d ∧ d.raw = rawAt ws 0 := by
  simp only [decodeF1Dest, bind_eq_ok, pure, Except.pure, Except.ok.injEq] at h
  obtain ⟨m0, _, _, _, d, hd, rfl⟩ := h
  exact ⟨d, rfl, raw_of_dest hd⟩

theorem decodeF0_ok {j : Instr} {w : Nat} {i : Instr} (h : decodeF0 j w = .ok i) : i = j := by
  simp only [decodeF0, bind_eq_ok, pure, Except.pure, Except.ok.injEq] at h
  obtain ⟨_, _, rfl⟩ := h
  rfl

/-- The parameter words of the instruction an opcode's format gives are the Words after the instruction word, in
order (`30_encoding.md` R49). -/
theorem decodeFields_params {op : Opcode} {w : Nat} {ws : List Int} {i : Instr} (h : decodeFields op w ws = .ok i) :
    i.params.map Prod.snd = (List.range i.opcode.paramCount).map (rawAt ws) := by
  cases op with
  | add | mul | lt | eq =>
    obtain ⟨a, b, d, rfl, ha, hb, hd⟩ := decodeF3_ok h
    simp [Instr.params, Instr.opcode, Opcode.paramCount, List.range_succ, ha, hb, hd]
  | jt | jf =>
    obtain ⟨a, b, rfl, ha, hb⟩ := decodeF2_ok h
    simp [Instr.params, Instr.opcode, Opcode.paramCount, List.range_succ, ha, hb]
  | out | arb =>
    obtain ⟨a, rfl, ha⟩ := decodeF1Source_ok h
    simp [Instr.params, Instr.opcode, Opcode.paramCount, List.range_succ, ha]
  | inp =>
    obtain ⟨d, rfl, hd⟩ := decodeF1Dest_ok h
    simp [Instr.params, Instr.opcode, Opcode.paramCount, List.range_succ, hd]
  | hlt =>
    obtain rfl := decodeF0_ok h
    rfl

/-- What decodes was read by the format of an opcode. -/
theorem decode_ok {ws : List Int} {i : Instr} (h : decode ws = .ok i) :
    ∃ op w, decodeFields op w ws = .ok i := by
  unfold decode at h
  simp only at h
  split at h
  · simp at h
  · split at h
    · simp at h
    · exact ⟨_, _, h⟩

theorem paramCount_le (op : Opcode) : op.paramCount ≤ 3 := by cases op <;> decide

theorem rawAt_fetchWords (s : State) {k : Nat} (hk : k < 3) : rawAt (fetchWords s) k = s.mem.read (s.pc + 1 + k) := by
  obtain rfl | rfl | rfl : k = 0 ∨ k = 1 ∨ k = 2 := by omega
  all_goals rfl

/-- A parameter word of the fetched instruction is a Word of memory after `pc` (`20_memory.md` R39). -/
theorem fetch_param {s : State} {i : Instr} {p : Mode × Int} (hf : fetch s = .ok i) (hp : p ∈ i.params) :
    ∃ k, k < i.opcode.paramCount ∧ p.2 = s.mem.read (s.pc + 1 + k) := by
  obtain ⟨op, w, hd⟩ := decode_ok hf
  have hmem : p.2 ∈ i.params.map Prod.snd := List.mem_map_of_mem hp
  rw [decodeFields_params hd] at hmem
  obtain ⟨k, hk, hpk⟩ := List.mem_map.mp hmem
  have hlt : k < i.opcode.paramCount := List.mem_range.mp hk
  have hle := paramCount_le i.opcode
  exact ⟨k, hlt, by rw [← hpk, rawAt_fetchWords s (by omega)]⟩

/-! ### The Words a core that meets the invariant reads -/

/-- Every cell reads as a Word (`10_state.md` R16). -/
theorem CoreInv.read_word {s : State} (h : CoreInv s) (a : Nat) : s.wordBits.inWord (s.mem.read a) = true := by
  rcases read_mem_or_default s.mem a with ⟨⟨k, v⟩, hc, hv⟩ | h0
  · exact hv ▸ h.mem_words k v hc
  · exact h0 ▸ inWord_small h.width (by decide) (by decide)

/-- A source of the fetched instruction has a Word as its value. -/
theorem CoreInv.readSource_word {s : State} {i : Instr} {a : Source} {v : Int} (h : CoreInv s)
    (hf : fetch s = .ok i) (ha : (a.mode, a.raw) ∈ i.params) (hv : readSource s a = .ok v) :
    s.wordBits.inWord v = true := by
  rcases readSource_eq_ok.mp hv with rfl | ⟨_, ad, _, rfl⟩
  · obtain ⟨k, _, hk⟩ := fetch_param hf ha
    have hraw : v = s.mem.read (s.pc + 1 + k) := hk
    exact hraw ▸ h.read_word _
  · exact h.read_word ad

/-! ### What an effect leaves in the registers -/

theorem Stored.frame {rel : Int → Int → Int → Prop} {a b : Source} {d : Dest} {s t : State}
    (h : Stored rel a b d s t) : t.rb = s.rb ∧ t.status = s.status ∧ t.wordBits = s.wordBits := by
  obtain ⟨_, _, _, _, _, _, _, _, _, _, rfl⟩ := h
  simp

theorem Stored.pc_address {rel : Int → Int → Int → Prop} {a b : Source} {d : Dest} {s t : State}
    (h : Stored rel a b d s t) : s.wordBits.aboveMax t.pc = false := by
  obtain ⟨_, _, _, _, _, _, _, _, hn, _, rfl⟩ := h
  exact hn

theorem Jumped.frame {taken : Int → Bool} {a b : Source} {s t : State} (h : Jumped taken a b s t) :
    t.rb = s.rb ∧ t.status = s.status ∧ t.wordBits = s.wordBits := by
  obtain ⟨_, _, _, _, _, ⟨_, _, rfl⟩ | ⟨_, _, rfl⟩⟩ := h
  all_goals simp

/-- A jump goes to an address where its target is a Word. -/
theorem Jumped.pc_address {taken : Int → Bool} {a b : Source} {s t : State} (h : Jumped taken a b s t)
    (hb : ∀ v, readSource s b = .ok v → s.wordBits.inWord v = true) : s.wordBits.aboveMax t.pc = false := by
  obtain ⟨_, v1, _, h1, _, ⟨_, hpos, rfl⟩ | ⟨_, hn, rfl⟩⟩ := h
  · have hcast : ((v1.toNat : Nat) : Int) = v1 := Int.toNat_of_nonneg hpos
    rw [setPc_pc, hcast]
    exact not_aboveMax_of_inWord (hb v1 h1)
  · exact hn

@[simp] theorem input_rb (ad npc : Nat) (s : State) : (input ad npc s).rb = s.rb := by
  rcases input_cases ad npc s with ⟨_, _, h⟩ | ⟨_, h⟩ | ⟨_, h⟩ | ⟨_, h⟩ <;> simp [h]

@[simp] theorem input_wordBits (ad npc : Nat) (s : State) : (input ad npc s).wordBits = s.wordBits := by
  rcases input_cases ad npc s with ⟨_, _, h⟩ | ⟨_, h⟩ | ⟨_, h⟩ | ⟨_, h⟩ <;> simp [h]

/-- IN stays at `pc`, or goes on with the run's status as it was. -/
theorem input_pc (ad npc : Nat) (s : State) :
    (input ad npc s).pc = s.pc ∨ (input ad npc s).pc = npc ∧ (input ad npc s).status = s.status := by
  rcases input_cases ad npc s with ⟨_, _, h⟩ | ⟨_, h⟩ | ⟨_, h⟩ | ⟨_, h⟩ <;> simp [h]

theorem Effect.wordBits {s t : State} {i : Instr} (h : Effect s t i) : t.wordBits = s.wordBits := by
  cases i with
  | add | mul | lt | eq => exact (Stored.frame h).2.2
  | jt | jf => exact (Jumped.frame h).2.2
  | inp d => obtain ⟨_, _, _, _, rfl⟩ := h; simp
  | out a => obtain ⟨_, _, _, _, rfl⟩ := h; simp
  | arb a => obtain ⟨_, _, _, _, _, rfl⟩ := h; simp
  | hlt => obtain rfl := h; simp

/-- `rb` stays, or the instruction is ARB, whose sum it is, a Word (`45_relbase_halt.md` R82). -/
theorem Effect.rb {s t : State} {i : Instr} (h : Effect s t i) :
    t.rb = s.rb ∨ ∃ a v, i = .arb a ∧ readSource s a = .ok v ∧ t.rb = s.rb + v ∧ s.wordBits.inWord t.rb = true := by
  cases i with
  | add | mul | lt | eq => exact .inl (Stored.frame h).1
  | jt | jf => exact .inl (Jumped.frame h).1
  | inp d => obtain ⟨_, _, _, _, rfl⟩ := h; simp
  | out a => obtain ⟨_, _, _, _, rfl⟩ := h; simp
  | arb a => obtain ⟨v, hv, _, _, hw, rfl⟩ := h; exact .inr ⟨a, v, rfl, hv, rfl, hw⟩
  | hlt => obtain rfl := h; simp

/-- An instruction that ends the run leaves `pc` at itself. -/
theorem Effect.pc_or_status {s t : State} {i : Instr} (h : Effect s t i) : t.pc = s.pc ∨ t.status = s.status := by
  cases i with
  | add | mul | lt | eq => exact .inr (Stored.frame h).2.1
  | jt | jf => exact .inr (Jumped.frame h).2.1
  | inp d => obtain ⟨ad, _, _, _, rfl⟩ := h; exact (input_pc ad _ s).imp_right And.right
  | out a => obtain ⟨_, _, _, _, rfl⟩ := h; simp
  | arb a => obtain ⟨_, _, _, _, _, rfl⟩ := h; simp
  | hlt => obtain rfl := h; simp

/-- The fetched instruction takes `pc` to an address: `len` Words on, to a Word that is not negative, or nowhere. -/
theorem Effect.pc_address {s t : State} {i : Instr} (hinv : CoreInv s) (hf : fetch s = .ok i) (h : Effect s t i) :
    s.wordBits.aboveMax t.pc = false := by
  cases i with
  | add | mul | lt | eq => exact Stored.pc_address h
  | jt a b | jf a b =>
    exact Jumped.pc_address h fun v hv => hinv.readSource_word hf (by simp [Instr.params]) hv
  | inp d =>
    obtain ⟨ad, _, _, hn, rfl⟩ := h
    rcases input_pc ad (s.pc + 2) s with hpc | ⟨hpc, _⟩
    · rw [hpc]; exact hinv.pc_address
    · rw [hpc]; exact hn
  | out a => obtain ⟨_, _, _, hn, rfl⟩ := h; exact hn
  | arb a => obtain ⟨_, _, _, hn, _, rfl⟩ := h; exact hn
  | hlt => obtain rfl := h; exact hinv.pc_address

/-! ### The step -/

/-- A step either leaves all registers but `status` and `cause` as they were, or is the fetched instruction's own
effect. -/
theorem step_still_or_effect {s t : State} (h : step s = .next t) :
    (t.pc = s.pc ∧ t.rb = s.rb ∧ t.wordBits = s.wordBits) ∨ ∃ i, fetch s = .ok i ∧ Effect s t i := by
  obtain ⟨_, ⟨_, rfl⟩ | ⟨_, c, _, rfl⟩ | ⟨_, i, hf, he⟩⟩ := step_cases h
  · simp
  · simp
  · rcases exec_cases he with heff | ⟨c, _, rfl⟩
    · exact .inr ⟨i, hf, heff⟩
    · simp

theorem step_wordBits {s t : State} (h : step s = .next t) : t.wordBits = s.wordBits := by
  rcases step_still_or_effect h with ⟨_, _, hw⟩ | ⟨_, _, heff⟩
  · exact hw
  · exact heff.wordBits

/-- What a step does to `rb`: nothing, or it is an ARB (`10_state.md` R14). -/
theorem step_rb {s t : State} (h : step s = .next t) :
    t.rb = s.rb ∨
      ∃ a v, fetch s = .ok (.arb a) ∧ readSource s a = .ok v ∧ t.rb = s.rb + v ∧ s.wordBits.inWord t.rb = true := by
  rcases step_still_or_effect h with ⟨_, hrb, _⟩ | ⟨i, hf, heff⟩
  · exact .inl hrb
  · refine heff.rb.imp_right ?_
    rintro ⟨a, v, rfl, hv⟩
    exact ⟨a, v, hf, hv⟩

/-- A step that ends the run leaves `pc`. -/
theorem step_pc_of_ended {s t : State} (h : step s = .next t) (ht : Ended t) : t.pc = s.pc := by
  obtain ⟨hrun, _⟩ := step_cases h
  rcases step_still_or_effect h with ⟨hpc, _, _⟩ | ⟨_, _, heff⟩
  · exact hpc
  · exact heff.pc_or_status.resolve_right fun hst => ht (hst.trans hrun)

theorem step_pc_address {s t : State} (hinv : CoreInv s) (h : step s = .next t) :
    t.wordBits.aboveMax t.pc = false := by
  rw [step_wordBits h]
  rcases step_still_or_effect h with ⟨hpc, _, _⟩ | ⟨i, hf, heff⟩
  · exact hpc ▸ hinv.pc_address
  · exact heff.pc_address hinv hf

/-- A held step takes one answer and changes nothing of the core (`43_io.md` R78). -/
theorem step_of_held {s : State} (h : Held s) : step s = .next s.afterRequest := by
  obtain ⟨hrun, hext, hwait, d, ad, npc, hf, hp, hd, hn⟩ := h
  have hin : exec (.inp d) s = .next (input ad npc s) := by
    simp [exec, execIn, hp, hd, hn, pure, Except.pure]
  rw [step_running hrun hext, hf]
  exact hin.trans (by simp [input, hwait, hold])

/-- Settles O40: a completed instruction goes to an address because its advance is checked and a jump's target is a
Word, and every other step leaves `pc`. -/
theorem programCounterIsAnAddress : Obligations.ProgramCounterIsAnAddress := by
  refine ⟨fun s hinv => hinv.pc_address, fun s t hinv => step_pc_address hinv, ?_⟩
  rintro s t h (hst | hst | hst | hheld)
  · exact step_pc_of_ended h (by simp [Ended, hst])
  · exact step_pc_of_ended h (by simp [Ended, hst])
  · exact step_pc_of_ended h (by simp [Ended, hst])
  · obtain rfl := Host.Outcome.next.inj ((step_of_held hheld).symm.trans h)
    exact afterRequest_pc s

/-! ### An instruction without a mode-2 parameter is blind to `rb` -/

@[simp] theorem checkParams_setRb (s : State) (r : Int) (n : Nat) : checkParams (s.setRb r) n = checkParams s n := rfl

@[simp] theorem advance_setRb (s : State) (r : Int) (len : Nat) : advance (s.setRb r) len = advance s len := rfl

theorem readSource_setRb (s : State) (r : Int) {a : Source} (h : a.mode ≠ .relative) :
    readSource (s.setRb r) a = readSource s a := by
  cases a with
  | position x => rfl
  | immediate x => rfl
  | relative x => exact absurd rfl h

theorem resolveDest_setRb (s : State) (r : Int) {d : Dest} (h : d.mode ≠ .relative) :
    resolveDest (s.setRb r) d = resolveDest s d := by
  cases d with
  | position x => rfl
  | relative x => exact absurd rfl h

theorem afterRequest_setRb (s : State) (r : Int) : (s.setRb r).afterRequest = s.afterRequest.setRb r := by
  cases hans : s.answers <;> simp [State.afterRequest, hans, State.setRb]

theorem input_setRb (ad npc : Nat) (s : State) (r : Int) : input ad npc (s.setRb r) = (input ad npc s).setRb r := by
  have hport : portAnswer (s.setRb r) = portAnswer s := rfl
  unfold input
  rw [hport, afterRequest_setRb]
  cases portAnswer s <;> rfl

/-- A step's end with another `rb` from the start is its end with that `rb` put in. -/
theorem settle_setRb {s t : State} {r : Int} {x y : Except FaultCause State}
    (hxy : y = x.map fun u => u.setRb r) (h : settle s x = .next t) :
    settle (s.setRb r) y = .next (t.setRb r) := by
  subst hxy
  rcases settle_cases h with rfl | ⟨c, rfl, rfl⟩
  · rfl
  · rfl

/-- Two sequences that begin alike and go on alike up to `g` are alike up to `g`. -/
theorem bind_map_congr {ε α β : Type} {x : Except ε α} {f f' : α → Except ε β} {g : β → β}
    (h : ∀ a, f' a = (f a).map g) : (x >>= f') = (x >>= f).map g := by
  cases x with
  | error e => rfl
  | ok a => exact h a

theorem storeResult_setRb {compute : Int → Int → Except FaultCause Int} {a b : Source} {d : Dest} {s t : State}
    (r : Int) (ha : a.mode ≠ .relative) (hb : b.mode ≠ .relative) (hd : d.mode ≠ .relative)
    (h : storeResult compute a b d s = .next t) :
    storeResult compute a b d (s.setRb r) = .next (t.setRb r) := by
  refine settle_setRb ?_ h
  rw [checkParams_setRb, readSource_setRb s r ha, readSource_setRb s r hb, resolveDest_setRb s r hd, advance_setRb]
  exact bind_map_congr fun _ => bind_map_congr fun _ => bind_map_congr fun _ => bind_map_congr fun _ =>
    bind_map_congr fun _ => bind_map_congr fun _ => rfl

theorem jumpWhen_setRb {taken : Int → Bool} {a b : Source} {s t : State} (r : Int)
    (ha : a.mode ≠ .relative) (hb : b.mode ≠ .relative) (h : jumpWhen taken a b s = .next t) :
    jumpWhen taken a b (s.setRb r) = .next (t.setRb r) := by
  refine settle_setRb ?_ h
  rw [checkParams_setRb, readSource_setRb s r ha, readSource_setRb s r hb, advance_setRb]
  refine bind_map_congr fun _ => bind_map_congr fun v0 => bind_map_congr fun v1 => ?_
  split
  · split <;> rfl
  · exact bind_map_congr fun _ => rfl

theorem execIn_setRb {d : Dest} {s t : State} (r : Int) (hd : d.mode ≠ .relative) (h : execIn d s = .next t) :
    execIn d (s.setRb r) = .next (t.setRb r) := by
  refine settle_setRb ?_ h
  rw [checkParams_setRb, resolveDest_setRb s r hd, advance_setRb]
  exact bind_map_congr fun _ => bind_map_congr fun _ => bind_map_congr fun _ =>
    congrArg Except.ok (input_setRb ..)

theorem execOut_setRb {a : Source} {s t : State} (r : Int) (ha : a.mode ≠ .relative) (h : execOut a s = .next t) :
    execOut a (s.setRb r) = .next (t.setRb r) := by
  refine settle_setRb ?_ h
  rw [checkParams_setRb, readSource_setRb s r ha, advance_setRb]
  exact bind_map_congr fun _ => bind_map_congr fun _ => bind_map_congr fun _ => rfl

/-- An instruction without a parameter in mode 2, other than ARB, does the same whatever `rb` holds. -/
theorem exec_setRb {i : Instr} {s t : State} (r : Int) (hmode : ∀ p ∈ i.params, p.1 ≠ .relative)
    (harb : ∀ a, i ≠ .arb a) (h : exec i s = .next t) : exec i (s.setRb r) = .next (t.setRb r) := by
  cases i with
  | add a b d | mul a b d | lt a b d | eq a b d =>
    simp only [Instr.params, List.forall_mem_cons] at hmode
    obtain ⟨ha, hb, hd, _⟩ := hmode
    exact storeResult_setRb r ha hb hd h
  | inp d => exact execIn_setRb r (hmode (d.mode, d.raw) (by simp [Instr.params])) h
  | out a => exact execOut_setRb r (hmode (a.mode, a.raw) (by simp [Instr.params])) h
  | jt a b | jf a b =>
    simp only [Instr.params, List.forall_mem_cons] at hmode
    obtain ⟨ha, hb, _⟩ := hmode
    exact jumpWhen_setRb r ha hb h
  | arb a => exact absurd rfl (harb a)
  | hlt => obtain rfl := Host.Outcome.next.inj h; rfl

/-- Settles O42: ARB alone writes `rb`, after a range check, and the resolver alone reads it, in mode 2. -/
theorem relativeBaseRegister : Obligations.RelativeBaseRegister := by
  refine ⟨fun _ _ _ _ => rfl, ?_, ?_, fun _ _ => ⟨rfl, rfl⟩, fun i s t r hmode harb h => exec_setRb r hmode harb h⟩
  · intro s t hword h
    rw [step_wordBits h]
    rcases step_rb h with hrb | ⟨_, _, _, _, _, hw⟩
    · exact hrb ▸ hword
    · exact hw
  · intro s t h hne
    obtain ⟨a, v, hf, hv, hrb, _⟩ := (step_rb h).resolve_left hne
    exact ⟨a, v, hf, hv, hrb⟩

end Sys2Proof.Machine
end

section
/-! PROOFS. Cells that nothing has written (`20_memory.md` R30): what reset leaves beyond the image, which one cell a
step may change, and that a read gives the cell on either side of the extent. -/

namespace Sys2Proof.Machine

/-! ### What an effect leaves in memory -/

theorem Stored.mem {rel : Int → Int → Int → Prop} {a b : Source} {d : Dest} {s t : State}
    (h : Stored rel a b d s t) : ∃ ad v, resolveDest s d = .ok ad ∧ t.mem = s.mem.write ad v := by
  obtain ⟨_, _, ad, v, _, _, hd, _, _, _, rfl⟩ := h
  exact ⟨ad, v, hd, rfl⟩

theorem Jumped.mem {taken : Int → Bool} {a b : Source} {s t : State} (h : Jumped taken a b s t) :
    t.mem = s.mem := by
  obtain ⟨_, _, _, _, _, ⟨_, _, rfl⟩ | ⟨_, _, rfl⟩⟩ := h
  all_goals rfl

/-- IN writes its destination when the port delivers a value, and no cell on any other answer (`43_io.md` R78). -/
theorem input_mem (ad npc : Nat) (s : State) :
    (input ad npc s).mem = s.mem ∨ ∃ v, (input ad npc s).mem = s.mem.write ad v := by
  rcases input_cases ad npc s with ⟨v, _, h⟩ | ⟨_, h⟩ | ⟨_, h⟩ | ⟨_, h⟩
  · exact .inr ⟨v, by simp [h]⟩
  all_goals exact .inl (by simp [h])

/-- An instruction leaves memory alone, or writes the one cell its destination designates. -/
theorem Effect.mem {s t : State} {i : Instr} (h : Effect s t i) :
    t.mem = s.mem ∨ ∃ d ad v, i.dest = some d ∧ resolveDest s d = .ok ad ∧ t.mem = s.mem.write ad v := by
  cases i with
  | add a b d | mul a b d | lt a b d | eq a b d =>
    obtain ⟨ad, v, hd, hmem⟩ := Stored.mem h
    exact .inr ⟨d, ad, v, rfl, hd, hmem⟩
  | jt | jf => exact .inl (Jumped.mem h)
  | inp d =>
    obtain ⟨ad, hd, _, _, rfl⟩ := h
    exact (input_mem ad _ s).imp_right fun ⟨v, hv⟩ => ⟨d, ad, v, rfl, hd, hv⟩
  | out a => obtain ⟨_, _, _, _, rfl⟩ := h; exact .inl rfl
  | arb a => obtain ⟨_, _, _, _, _, rfl⟩ := h; exact .inl rfl
  | hlt => obtain rfl := h; exact .inl rfl

/-- A step leaves memory alone, or writes the one cell the fetched instruction's destination designates. -/
theorem step_mem {s t : State} (h : step s = .next t) :
    t.mem = s.mem ∨ ∃ i d ad v, fetch s = .ok i ∧ i.dest = some d ∧ resolveDest s d = .ok ad ∧
      t.mem = s.mem.write ad v := by
  obtain ⟨_, ⟨_, rfl⟩ | ⟨_, c, _, rfl⟩ | ⟨_, i, hf, he⟩⟩ := step_cases h
  · exact .inl rfl
  · exact .inl rfl
  · rcases exec_cases he with heff | ⟨c, _, rfl⟩
    · exact heff.mem.imp_right fun ⟨d, ad, v, hw⟩ => ⟨i, d, ad, v, hf, hw⟩
    · exact .inl rfl

/-- A cell that reads differently after a step is the one the fetched instruction's destination designates. -/
theorem step_changes_only_dest {s t : State} {a : Nat} (h : step s = .next t) (hne : t.mem.read a ≠ s.mem.read a) :
    ∃ i d, fetch s = .ok i ∧ i.dest = some d ∧ resolveDest s d = .ok a := by
  rcases step_mem h with hmem | ⟨i, d, ad, v, hf, hid, hd, hmem⟩
  · exact absurd (by rw [hmem]) hne
  · have had : a = ad := by
      by_contra hother
      exact hne (by rw [hmem, read_write_other s.mem hother v])
    exact ⟨i, d, hf, hid, had ▸ hd⟩

/-- The instructions that have a destination. -/
theorem instr_of_dest_eq_some {i : Instr} {d : Dest} (h : i.dest = some d) :
    (∃ x y, i = .add x y d) ∨ (∃ x y, i = .mul x y d) ∨ (∃ x y, i = .lt x y d) ∨ (∃ x y, i = .eq x y d) ∨
      i = .inp d := by
  cases i with
  | add | mul | lt | eq | inp => obtain rfl := Option.some.inj h; simp
  | out | jt | jf | arb | hlt => simp [Instr.dest] at h

/-! ### Reads -/

/-- Beyond its image a reset core holds 0. -/
theorem read_resetWith_beyond (w : WordBits) (as : List PortAnswer) (n : Nat) {img : List Int} {a : Nat}
    (h : img.length ≤ a) : (resetWith w as n img).mem.read a = 0 := by
  have hload : (Memory.load [] 0 img).read a = 0 := by
    rw [read_load rfl, if_neg (by omega), read_nil]
  exact hload

/-- Reading through an address of the machine gives what the cell holds. -/
theorem readSource_position {s : State} {a : Nat} (h : s.wordBits.aboveMax a = false) :
    readSource s (.position a) = .ok (s.mem.read a) :=
  readSource_eq_ok.mpr (.inr ⟨a, a, .inl ⟨rfl, checkAddress_eq_ok.mpr ⟨rfl, h⟩⟩, rfl⟩)

/-- The fetched Words are what the cells from `pc` on hold. -/
theorem fetchWords_getElem? (s : State) {k : Nat} (hk : k < 4) :
    (fetchWords s)[k]? = some (s.mem.read (s.pc + k)) := by
  obtain rfl | rfl | rfl | rfl : k = 0 ∨ k = 1 ∨ k = 2 ∨ k = 3 := by omega
  all_goals rfl

/-- Settles O16: an image is loaded over an all-zero memory, a step writes at most its destination's cell, and no read
looks at the extent. -/
theorem neverWrittenCellsReadZero : Obligations.NeverWrittenCellsReadZero := by
  refine ⟨fun w as n _ _ hlen => read_resetWith_beyond w as n hlen, ?_, ?_, ?_⟩
  · intro s t a h hne
    obtain ⟨i, d, hf, hid, hd⟩ := step_changes_only_dest h hne
    exact ⟨i, d, hf, instr_of_dest_eq_some hid, hd⟩
  · intro s a e ha h0
    exact (readSource_position ha).trans (congrArg _ h0)
  · intro s e k hk h0
    exact (fetchWords_getElem? _ hk).trans (congrArg _ h0)

end Sys2Proof.Machine
end

section
/-! PROOFS. The encoding (`30_encoding.md`): decoding an encoding, the decoder's five answers in the terms of R50 to
R59, and what the fields of an accepted instruction word are. -/

namespace Sys2Proof.Machine

open Sys2Proof.Spec

/-! ### Decoding what was encoded -/

/-- Where the opcode field of an instruction word stands, the decoder goes on with that opcode's format. -/
theorem decode_instrWord (op : Opcode) (a b c : Nat) (ps : List Int) :
    decode (instrWord op a b c :: ps) =
      decodeFields op (instrWord op a b c).toNat (instrWord op a b c :: ps) := by
  unfold decode
  simp only [List.getD_cons_zero, if_neg (instrWord_nonneg op a b c), instrWord_mod, ofNumber_number]

theorem mode_digit_lt_ten (m : Mode) : m.digit < 10 := by
  have := mode_digit_lt m
  omega

/-- The decoder reads back the modes that an instruction word was made of. -/
theorem modeAt_instrWord (op : Opcode) (m0 m1 m2 : Mode) :
    modeAt (instrWord op m0.digit m1.digit m2.digit).toNat 0 = .ok m0 ∧
    modeAt (instrWord op m0.digit m1.digit m2.digit).toNat 1 = .ok m1 ∧
    modeAt (instrWord op m0.digit m1.digit m2.digit).toNat 2 = .ok m2 := by
  obtain ⟨h0, h1, h2⟩ := instrWord_digit op (mode_digit_lt_ten m0) (mode_digit_lt_ten m1) (mode_digit_lt_ten m2)
  exact ⟨modeAt_eq h0, modeAt_eq h1, modeAt_eq h2⟩

/-- The digits above the modes of an instruction word pass the check of R58, as many modes as are not 0. -/
theorem checkReserved_instrWord (op : Opcode) (m0 m1 m2 : Mode) :
    checkReserved (instrWord op m0.digit m1.digit m2.digit).toNat 3 = .ok () ∧
    checkReserved (instrWord op m0.digit m1.digit 0).toNat 2 = .ok () ∧
    checkReserved (instrWord op m0.digit 0 0).toNat 1 = .ok () ∧
    checkReserved (instrWord op 0 0 0).toNat 0 = .ok () := by
  have lt0 := mode_digit_lt_ten m0
  have lt1 := mode_digit_lt_ten m1
  have lt2 := mode_digit_lt_ten m2
  have zero : (0 : Nat) < 10 := by decide
  obtain ⟨h3, _⟩ := instrWord_reserved op lt0 lt1 lt2
  obtain ⟨_, h2, _⟩ := instrWord_reserved op lt0 lt1 zero
  obtain ⟨_, _, h1, _⟩ := instrWord_reserved op lt0 zero zero
  obtain ⟨_, _, _, h0⟩ := instrWord_reserved op zero zero zero
  exact ⟨if_pos h3, if_pos (h2 rfl), if_pos (h1 rfl rfl), if_pos (h0 rfl rfl rfl)⟩

theorem decodeF3_instrWord (mk : Source → Source → Dest → Instr) (op : Opcode) (a b : Source) (d : Dest)
    (rest : List Int) :
    decodeF3 mk (instrWord op a.mode.digit b.mode.digit d.mode.digit).toNat
      (instrWord op a.mode.digit b.mode.digit d.mode.digit :: a.raw :: b.raw :: d.raw :: rest) = .ok (mk a b d) := by
  obtain ⟨h0, h1, h2⟩ := modeAt_instrWord op a.mode b.mode d.mode
  obtain ⟨hr, _⟩ := checkReserved_instrWord op a.mode b.mode d.mode
  simp [decodeF3, h0, h1, h2, hr, pure, Except.pure]

theorem decodeF2_instrWord (mk : Source → Source → Instr) (op : Opcode) (a b : Source) (rest : List Int) :
    decodeF2 mk (instrWord op a.mode.digit b.mode.digit 0).toNat
      (instrWord op a.mode.digit b.mode.digit 0 :: a.raw :: b.raw :: rest) = .ok (mk a b) := by
  obtain ⟨h0, h1, _⟩ := modeAt_instrWord op a.mode b.mode .position
  obtain ⟨_, hr, _⟩ := checkReserved_instrWord op a.mode b.mode .position
  rw [Mode.digit] at h0 h1
  simp [decodeF2, h0, h1, hr, pure, Except.pure]

theorem decodeF1Source_instrWord (mk : Source → Instr) (op : Opcode) (a : Source) (rest : List Int) :
    decodeF1Source mk (instrWord op a.mode.digit 0 0).toNat (instrWord op a.mode.digit 0 0 :: a.raw :: rest) =
      .ok (mk a) := by
  obtain ⟨h0, _⟩ := modeAt_instrWord op a.mode .position .position
  obtain ⟨_, _, hr, _⟩ := checkReserved_instrWord op a.mode .position .position
  rw [Mode.digit] at h0
  simp [decodeF1Source, h0, hr, pure, Except.pure]

theorem decodeF1Dest_instrWord (mk : Dest → Instr) (op : Opcode) (d : Dest) (rest : List Int) :
    decodeF1Dest mk (instrWord op d.mode.digit 0 0).toNat (instrWord op d.mode.digit 0 0 :: d.raw :: rest) =
      .ok (mk d) := by
  obtain ⟨h0, _⟩ := modeAt_instrWord op d.mode .position .position
  obtain ⟨_, _, hr, _⟩ := checkReserved_instrWord op d.mode .position .position
  rw [Mode.digit] at h0
  simp [decodeF1Dest, h0, hr, pure, Except.pure]

theorem decode_encode (i : Instr) (rest : List Int) : decode (encode i ++ rest) = .ok i := by
  cases i with
  | add a b d | mul a b d | lt a b d | eq a b d => exact (decode_instrWord ..).trans (decodeF3_instrWord ..)
  | jt a b | jf a b => exact (decode_instrWord ..).trans (decodeF2_instrWord ..)
  | out a | arb a => exact (decode_instrWord ..).trans (decodeF1Source_instrWord ..)
  | inp d => exact (decode_instrWord ..).trans (decodeF1Dest_instrWord ..)
  | hlt => exact decode_instrWord .hlt 0 0 0 rest

/-- Settles O7: by the instruction's format, every digit and every word being read back as it was put in. -/
theorem decodeOfEncode : Obligations.DecodeOfEncode := decode_encode

end Sys2Proof.Machine
end

section
/-! PROOFS. The decoder's five answers, in the terms of the spec's rules (`30_encoding.md` R50 to R59), the fields of
an accepted instruction word, and the words the decoder accepts. -/

namespace Sys2Proof.Machine

open Sys2Proof.Spec

/-! ### Fields -/

/-- The mode that a digit 0, 1 or 2 stands for (R52). -/
def modeOf (n : Nat) : Mode :=
  match n with
  | 0 => .position
  | 1 => .immediate
  | _ => .relative

theorem modeOf_eq_immediate {n : Nat} : modeOf n = .immediate ↔ n = 1 := by
  unfold modeOf
  split <;> simp_all

theorem digit_modeOf {n : Nat} (h : n ≤ 2) : (modeOf n).digit = n := by
  obtain rfl | rfl | rfl : n = 0 ∨ n = 1 ∨ n = 2 := by omega
  all_goals rfl

theorem modeAt_legal {w i : Nat} (h : digit w (2 + i) ≤ 2) : modeAt w i = .ok (modeOf (digit w (2 + i))) :=
  modeAt_eq (digit_modeOf h).symm

theorem modeAt_bad {w i : Nat} (h : 2 < digit w (2 + i)) : modeAt w i = .error .badModeDigit := by
  unfold modeAt
  split
  · omega
  · omega
  · omega
  · rfl

/-- The destination of a mode other than Immediate. -/
def destOf (m : Mode) (x : Int) : Dest :=
  match m with
  | .relative => .relative x
  | _ => .position x

theorem dest_eq_ok {m : Mode} (h : m ≠ .immediate) (x : Int) : m.dest x = .ok (destOf m x) := by
  cases m with
  | immediate => exact absurd rfl h
  | position | relative => rfl

theorem mode_destOf {m : Mode} (h : m ≠ .immediate) (x : Int) : (destOf m x).mode = m := by
  cases m with
  | immediate => exact absurd rfl h
  | position | relative => rfl

@[simp] theorem raw_destOf (m : Mode) (x : Int) : (destOf m x).raw = x := by cases m <;> rfl

@[simp] theorem source_mode (m : Mode) (x : Int) : (m.source x).mode = m := by cases m <;> rfl

/-- The instruction of an opcode whose parameter `k` has mode `m k` and parameter word `x k`. -/
def instrOf (op : Opcode) (m : Nat → Mode) (x : Nat → Int) : Instr :=
  match op with
  | .add => .add ((m 0).source (x 0)) ((m 1).source (x 1)) (destOf (m 2) (x 2))
  | .mul => .mul ((m 0).source (x 0)) ((m 1).source (x 1)) (destOf (m 2) (x 2))
  | .inp => .inp (destOf (m 0) (x 0))
  | .out => .out ((m 0).source (x 0))
  | .jt => .jt ((m 0).source (x 0)) ((m 1).source (x 1))
  | .jf => .jf ((m 0).source (x 0)) ((m 1).source (x 1))
  | .lt => .lt ((m 0).source (x 0)) ((m 1).source (x 1)) (destOf (m 2) (x 2))
  | .eq => .eq ((m 0).source (x 0)) ((m 1).source (x 1)) (destOf (m 2) (x 2))
  | .arb => .arb ((m 0).source (x 0))
  | .hlt => .hlt

@[simp] theorem opcode_instrOf (op : Opcode) (m : Nat → Mode) (x : Nat → Int) : (instrOf op m x).opcode = op := by
  cases op <;> rfl

theorem params_instrOf {op : Opcode} {m : Nat → Mode} (x : Nat → Int)
    (h : ∀ k, op.destIndex = some k → m k ≠ .immediate) :
    (instrOf op m x).params = (List.range op.paramCount).map fun k => (m k, x k) := by
  cases op with
  | add | mul | lt | eq =>
    simp [instrOf, Instr.params, Opcode.paramCount, List.range_succ, mode_destOf (h 2 rfl)]
  | inp => simp [instrOf, Instr.params, Opcode.paramCount, List.range_succ, mode_destOf (h 0 rfl)]
  | out | arb | jt | jf | hlt => simp [instrOf, Instr.params, Opcode.paramCount, List.range_succ]

/-- What the fields of the instruction word `w` and the Words after it make, `op` being its opcode. -/
def fieldsInstr (op : Opcode) (w : Nat) (ws : List Int) : Instr :=
  instrOf op (fun k => modeOf (digit w (2 + k))) (rawAt ws)

/-! ### The formats, row by row -/

/-- A parameter's mode digit is 3 to 9: every format looks at its modes first (R57). -/
theorem decodeFields_bad {op : Opcode} {w : Nat} (ws : List Int)
    (h : ∃ k < op.paramCount, 2 < digit w (2 + k)) : decodeFields op w ws = .error .badModeDigit := by
  obtain ⟨k, hk, hbad⟩ := h
  have hmode : ∀ j, modeAt w j = .ok (modeOf (digit w (2 + j))) ∨ modeAt w j = .error .badModeDigit := fun j =>
    (Nat.lt_or_ge 2 (digit w (2 + j))).elim (fun hj => .inr (modeAt_bad hj)) (fun hj => .inl (modeAt_legal hj))
  have herr := modeAt_bad hbad
  cases op with
  | add | mul | lt | eq =>
    obtain rfl | rfl | rfl : k = 0 ∨ k = 1 ∨ k = 2 := by simp only [Opcode.paramCount] at hk; omega
    · simp [decodeFields, decodeF3, herr]
    · rcases hmode 0 with h0 | h0 <;> simp [decodeFields, decodeF3, h0, herr]
    · rcases hmode 0 with h0 | h0 <;> rcases hmode 1 with h1 | h1 <;>
        simp [decodeFields, decodeF3, h0, h1, herr]
  | jt | jf =>
    obtain rfl | rfl : k = 0 ∨ k = 1 := by simp only [Opcode.paramCount] at hk; omega
    · simp [decodeFields, decodeF2, herr]
    · rcases hmode 0 with h0 | h0 <;> simp [decodeFields, decodeF2, h0, herr]
  | inp | out | arb =>
    obtain rfl : k = 0 := by simp only [Opcode.paramCount] at hk; omega
    simp [decodeFields, decodeF1Dest, decodeF1Source, herr]
  | hlt => simp [Opcode.paramCount] at hk

/-- With legal modes a format checks the reserved digits, then the destination (R58, R59). -/
theorem decodeFields_legal {op : Opcode} {w : Nat} (ws : List Int) (h : ∀ k < op.paramCount, digit w (2 + k) ≤ 2) :
    decodeFields op w ws = (do
      checkReserved w op.paramCount
      if ∃ k ∈ op.destIndex, digit w (2 + k) = 1 then .error .immediateDestination
      else .ok (fieldsInstr op w ws)) := by
  have hmode : ∀ k < op.paramCount, modeAt w k = .ok (modeOf (digit w (2 + k))) := fun k hk => modeAt_legal (h k hk)
  have hdest : ∀ k x, (modeOf (digit w (2 + k))).dest x =
      if digit w (2 + k) = 1 then .error .immediateDestination else .ok (destOf (modeOf (digit w (2 + k))) x) := by
    intro k x
    split
    · next h1 => rw [h1]; rfl
    · next h1 => exact dest_eq_ok (fun hm => h1 (modeOf_eq_immediate.mp hm)) x
  cases op with
  | add | mul | lt | eq =>
    have h0 := hmode 0 (by decide)
    have h1 := hmode 1 (by decide)
    have h2 := hmode 2 (by decide)
    simp only [decodeFields, decodeF3, h0, h1, h2, ok_bind, hdest]
    split <;> simp_all [Opcode.destIndex, fieldsInstr, instrOf, pure, Except.pure, Opcode.paramCount]
  | jt | jf =>
    have h0 := hmode 0 (by decide)
    have h1 := hmode 1 (by decide)
    simp [decodeFields, decodeF2, h0, h1, Opcode.destIndex, fieldsInstr, instrOf, pure, Except.pure, Opcode.paramCount]
  | out | arb =>
    have h0 := hmode 0 (by decide)
    simp [decodeFields, decodeF1Source, h0, Opcode.destIndex, fieldsInstr, instrOf, pure, Except.pure,
      Opcode.paramCount]
  | inp =>
    have h0 := hmode 0 (by decide)
    simp only [decodeFields, decodeF1Dest, h0, ok_bind, hdest]
    split <;> simp_all [Opcode.destIndex, fieldsInstr, instrOf, pure, Except.pure, Opcode.paramCount]
  | hlt => simp [decodeFields, decodeF0, Opcode.destIndex, fieldsInstr, instrOf, pure, Except.pure, Opcode.paramCount]

/-! ### The fields in the spec's terms -/

theorem paramCount_number (op : Opcode) : Spec.paramCount op.number = op.paramCount := by cases op <;> decide

theorem number_mem (op : Opcode) : (op.number : Int) ∈ opcodeNumbers := by cases op <;> decide

theorem modeDigit_natCast (w k : Nat) : modeDigit (w : Int) k = (digit w (2 + k) : Int) := by
  simp [modeDigit, digit]

/-- An opcode field in the table is some opcode's number. -/
theorem selectsRow_iff {iw : Int} :
    selectsRow iw ↔ ∃ (w : Nat) (op : Opcode), iw = w ∧ Opcode.ofNumber (w % 100) = some op := by
  constructor
  · rintro ⟨hpos, hmem⟩
    obtain ⟨w, rfl⟩ := Int.eq_ofNat_of_zero_le hpos
    have hrow : ∀ k ∈ opcodeNumbers, (Opcode.ofNumber k.toNat).isSome = true := by decide
    obtain ⟨op, hop⟩ := Option.isSome_iff_exists.mp (hrow _ hmem)
    have hfield : ((w : Int) % 100).toNat = w % 100 := by omega
    exact ⟨w, op, rfl, hfield ▸ hop⟩
  · rintro ⟨w, op, rfl, hop⟩
    refine ⟨Int.natCast_nonneg w, ?_⟩
    have hnum : ((w : Int) % 100) = op.number := by rw [number_of_ofNumber hop]; omega
    rw [hnum]
    exact number_mem op

section
variable {w : Nat} {op : Opcode} (hop : (w : Int) % 100 = op.number)
include hop

theorem modesLegal_natCast : modesLegal w ↔ ∀ k < op.paramCount, digit w (2 + k) ≤ 2 := by
  simp only [modesLegal, hop, paramCount_number, modeDigit_natCast]
  norm_cast

theorem reservedZero_natCast : reservedZero w ↔ w / 10 ^ (2 + op.paramCount) = 0 := by
  simp only [reservedZero, hop, paramCount_number]
  norm_cast

theorem immediateDest_natCast : immediateDest w ↔ ∃ k ∈ op.destIndex, digit w (2 + k) = 1 := by
  simp only [immediateDest, hop, modeDigit_natCast]
  cases op <;> simp [Opcode.number, Opcode.destIndex]

end

/-! ### The decoder -/

theorem decode_of_negative {iw : Int} (ps : List Int) (h : iw < 0) : decode (iw :: ps) = .error .illegalOpcode := by
  simp [decode, h]

theorem decode_natCast_of_row {w : Nat} {op : Opcode} (h : Opcode.ofNumber (w % 100) = some op) (ps : List Int) :
    decode ((w : Int) :: ps) = decodeFields op w (w :: ps) := by
  simp [decode, h]

theorem decode_natCast_of_no_row {w : Nat} (h : Opcode.ofNumber (w % 100) = none) (ps : List Int) :
    decode ((w : Int) :: ps) = .error .illegalOpcode := by
  simp [decode, h]

/-- The five answers of the decoder, in the order of R66: each of the four decode causes exactly under its rule, and
otherwise the instruction that the fields make. -/
theorem decode_cases (iw : Int) (ps : List Int) :
    (¬ selectsRow iw ∧ decode (iw :: ps) = .error .illegalOpcode) ∨
    (selectsRow iw ∧ ¬ modesLegal iw ∧ decode (iw :: ps) = .error .badModeDigit) ∨
    (selectsRow iw ∧ modesLegal iw ∧ ¬ reservedZero iw ∧ decode (iw :: ps) = .error .reservedModeDigit) ∨
    (selectsRow iw ∧ modesLegal iw ∧ reservedZero iw ∧ immediateDest iw ∧
      decode (iw :: ps) = .error .immediateDestination) ∨
    (selectsRow iw ∧ modesLegal iw ∧ reservedZero iw ∧ ¬ immediateDest iw ∧
      ∃ (w : Nat) (op : Opcode), iw = w ∧ (w : Int) % 100 = op.number ∧
        decode (iw :: ps) = .ok (fieldsInstr op w (iw :: ps))) := by
  by_cases hrow : selectsRow iw
  · obtain ⟨w, op, rfl, hop⟩ := selectsRow_iff.mp hrow
    have hnum : (w : Int) % 100 = op.number := by rw [number_of_ofNumber hop]; omega
    have hdec := decode_natCast_of_row hop ps
    right
    by_cases hmodes : modesLegal w
    · right
      rw [hdec, decodeFields_legal _ ((modesLegal_natCast hnum).mp hmodes)]
      by_cases hres : reservedZero w
      · rw [checkReserved, if_pos ((reservedZero_natCast hnum).mp hres), ok_bind]
        by_cases himm : immediateDest w
        · rw [if_pos ((immediateDest_natCast hnum).mp himm)]
          simp [hrow, hmodes, hres, himm]
        · rw [if_neg (fun h => himm ((immediateDest_natCast hnum).mpr h))]
          simp only [hrow, hmodes, hres, himm]
          exact .inr (.inr ⟨trivial, trivial, trivial, id, w, op, rfl, hnum, rfl⟩)
      · rw [checkReserved, if_neg (fun h => hres ((reservedZero_natCast hnum).mpr h)), error_bind]
        simp [hrow, hmodes, hres]
    · refine .inl ⟨hrow, hmodes, hdec.trans (decodeFields_bad _ ?_)⟩
      rw [modesLegal_natCast hnum] at hmodes
      simpa using hmodes
  · refine .inl ⟨hrow, ?_⟩
    by_cases hneg : iw < 0
    · exact decode_of_negative ps hneg
    · obtain ⟨w, rfl⟩ := Int.eq_ofNat_of_zero_le (Int.not_lt.mp hneg)
      cases hop : Opcode.ofNumber (w % 100) with
      | none => exact decode_natCast_of_no_row hop ps
      | some op => exact absurd (selectsRow_iff.mpr ⟨w, op, rfl, hop⟩) hrow

theorem step_of_fetch_error {s : State} {c : FaultCause} (h : Decodes s) (hf : fetch s = .error c) :
    step s = .next (raise c s) := by
  rw [step_running h.1 h.2, hf]

/-- A core at a word that does not decode raises the decoder's cause. -/
theorem step_of_decode_error {s : State} {c : FaultCause} (h : Decodes s)
    (hc : ∀ ps, decode (s.mem.read s.pc :: ps) = .error c) : step s = .next (raise c s) :=
  step_of_fetch_error h (hc _)

end Sys2Proof.Machine
end

section
/-! PROOFS. The statements about the encoding that follow from the decoder's five answers. -/

namespace Sys2Proof.Machine

open Sys2Proof.Spec

/-! ### The four decode causes -/

theorem decode_illegalOpcode_iff (iw : Int) (ps : List Int) :
    decode (iw :: ps) = .error .illegalOpcode ↔ ¬ selectsRow iw := by
  rcases decode_cases iw ps with ⟨h, hd⟩ | ⟨h, _, hd⟩ | ⟨h, _, _, hd⟩ | ⟨h, _, _, _, hd⟩ |
    ⟨h, -, -, -, _, _, -, -, hd⟩ <;> simp [hd, h]

theorem decode_badModeDigit_iff (iw : Int) (ps : List Int) :
    decode (iw :: ps) = .error .badModeDigit ↔ selectsRow iw ∧ ¬ modesLegal iw := by
  rcases decode_cases iw ps with ⟨h, hd⟩ | ⟨h, hm, hd⟩ | ⟨_, hm, _, hd⟩ | ⟨_, hm, _, _, hd⟩ |
    ⟨-, hm, -, -, _, _, -, -, hd⟩ <;> simp [*]

theorem decode_reservedModeDigit_iff (iw : Int) (ps : List Int) :
    decode (iw :: ps) = .error .reservedModeDigit ↔ selectsRow iw ∧ modesLegal iw ∧ ¬ reservedZero iw := by
  rcases decode_cases iw ps with ⟨h, hd⟩ | ⟨_, hm, hd⟩ | ⟨_, _, hr, hd⟩ | ⟨_, _, hr, _, hd⟩ |
    ⟨-, -, hr, -, _, _, -, -, hd⟩ <;> simp [*]

theorem decode_immediateDestination_iff (iw : Int) (ps : List Int) :
    decode (iw :: ps) = .error .immediateDestination ↔
      selectsRow iw ∧ modesLegal iw ∧ reservedZero iw ∧ immediateDest iw := by
  rcases decode_cases iw ps with ⟨h, hd⟩ | ⟨_, hm, hd⟩ | ⟨_, _, hr, hd⟩ | ⟨_, _, _, hi, hd⟩ |
    ⟨-, -, -, hi, _, _, -, -, hd⟩ <;> simp [*]

/-- Settles O1: of the decoder's five answers the first is the only one with this cause. -/
theorem unknownOpcodeIsIllegal : Obligations.UnknownOpcodeIsIllegal :=
  ⟨decode_illegalOpcode_iff,
    fun _ hs hrow => step_of_decode_error hs fun ps => (decode_illegalOpcode_iff _ ps).mpr hrow, rfl⟩

/-- HLT has no parameter and so no mode digit to be bad; mode digit 3 is bad for every other opcode. -/
theorem badModeDigit_raised_iff {opc : Int} (h : opc ∈ opcodeNumbers) :
    (∃ (iw : Int) (ps : List Int), iw % 100 = opc ∧ decode (iw :: ps) = .error .badModeDigit) ↔ opc ≠ 99 := by
  constructor
  · rintro ⟨iw, ps, rfl, hd⟩ h99
    obtain ⟨_, hbad⟩ := (decode_badModeDigit_iff iw ps).mp hd
    exact hbad fun k hk => by simp [h99, Spec.paramCount] at hk
  · intro hne
    have hdigit : ∀ o ∈ opcodeNumbers, o ≠ 99 → (300 + o) % 100 = o ∧ decode [300 + o] = .error .badModeDigit := by
      decide
    exact ⟨300 + opc, [], hdigit opc h hne⟩

/-- Settles O2: the second of the decoder's five answers. -/
theorem unknownModeDigitIsBad : Obligations.UnknownModeDigitIsBad :=
  ⟨decode_badModeDigit_iff,
    fun _ hs hrow hm => step_of_decode_error hs fun ps => (decode_badModeDigit_iff _ ps).mpr ⟨hrow, hm⟩,
    fun _ h => badModeDigit_raised_iff h, rfl⟩

/-- Settles O3: the third of the decoder's five answers. -/
theorem nonzeroReservedDigitFaults : Obligations.NonzeroReservedDigitFaults :=
  ⟨decode_reservedModeDigit_iff,
    fun _ hs hrow hm hr => step_of_decode_error hs fun ps => (decode_reservedModeDigit_iff _ ps).mpr ⟨hrow, hm, hr⟩,
    rfl⟩

/-- Settles O4: the fourth of the decoder's five answers. -/
theorem immediateDestinationFaults : Obligations.ImmediateDestinationFaults :=
  ⟨decode_immediateDestination_iff,
    fun _ hs hrow hm hr hi =>
      step_of_decode_error hs fun ps => (decode_immediateDestination_iff _ ps).mpr ⟨hrow, hm, hr, hi⟩, rfl⟩

/-! ### What decodes -/

/-- What decodes is what the fields make, the modes being legal, the reserved digits 0 and no destination Immediate. -/
theorem decode_ok_fields {iw : Int} {ps : List Int} {i : Instr} (h : decode (iw :: ps) = .ok i) :
    ∃ (w : Nat) (op : Opcode), iw = w ∧ (w : Int) % 100 = op.number ∧ i = fieldsInstr op w (iw :: ps) ∧
      (∀ k < op.paramCount, digit w (2 + k) ≤ 2) ∧ w / 10 ^ (2 + op.paramCount) = 0 ∧
      ∀ k, op.destIndex = some k → modeOf (digit w (2 + k)) ≠ .immediate := by
  rcases decode_cases iw ps with ⟨_, hd⟩ | ⟨_, _, hd⟩ | ⟨_, _, _, hd⟩ | ⟨_, _, _, _, hd⟩ |
    ⟨_, hm, hr, hi, w, op, rfl, hnum, hd⟩
  · simp [hd] at h
  · simp [hd] at h
  · simp [hd] at h
  · simp [hd] at h
  · refine ⟨w, op, rfl, hnum, Except.ok.inj (h.symm.trans hd), (modesLegal_natCast hnum).mp hm,
      (reservedZero_natCast hnum).mp hr, fun k hk himm => hi ?_⟩
    exact (immediateDest_natCast hnum).mpr ⟨k, hk, modeOf_eq_immediate.mp himm⟩

/-- Settles O5: the instruction that the fields make has the modes of its digits. -/
theorem opcodeFieldAndModeDigits : Obligations.OpcodeFieldAndModeDigits := by
  intro iw ps i h
  obtain ⟨w, op, rfl, hnum, rfl, hm, _, hdest⟩ := decode_ok_fields h
  have hparams : (fieldsInstr op w (w :: ps)).params = _ := params_instrOf (rawAt (w :: ps)) hdest
  refine ⟨Int.natCast_nonneg w, by simp [fieldsInstr, hnum], by simp [hparams, hnum, paramCount_number], ?_⟩
  intro k p hp
  obtain ⟨hk, rfl⟩ : k < op.paramCount ∧ (modeOf (digit w (2 + k)), rawAt (w :: ps) k) = p := by
    simpa [hparams, List.getElem?_range, List.getElem?_eq_some_iff] using hp
  rw [modeDigit_natCast]
  obtain hd | hd | hd : digit w (2 + k) = 0 ∨ digit w (2 + k) = 1 ∨ digit w (2 + k) = 2 := by
    have := hm k hk
    omega
  · exact .inl ⟨by simp [hd], by simp [hd, modeOf]⟩
  · exact .inr (.inl ⟨by simp [hd], by simp [hd, modeOf]⟩)
  · exact .inr (.inr ⟨by simp [hd], by simp [hd, modeOf]⟩)

/-! ### The encoding of what decodes -/

/-- An instruction's encoding is its instruction word and its parameter words. -/
theorem encode_eq_cons (i : Instr) : encode i = (encode i).headD 0 :: i.params.map Prod.snd := by
  cases i <;> rfl

/-- An instruction word with legal modes and zeros above them is the one the encoder makes of its fields. -/
theorem headD_encode_fieldsInstr {op : Opcode} {w : Nat} {ws : List Int} (hnum : (w : Int) % 100 = op.number)
    (hm : ∀ k < op.paramCount, digit w (2 + k) ≤ 2) (hr : w / 10 ^ (2 + op.paramCount) = 0)
    (hdest : ∀ k, op.destIndex = some k → modeOf (digit w (2 + k)) ≠ .immediate) :
    (encode (fieldsInstr op w ws)).headD 0 = w := by
  have hdig : ∀ k < op.paramCount, (modeOf (digit w (2 + k))).digit = w / 10 ^ (2 + k) % 10 := fun k hk =>
    digit_modeOf (hm k hk)
  cases op with
  | add | mul | lt | eq =>
    have h0 := hdig 0 (by decide)
    have h1 := hdig 1 (by decide)
    have h2 := hdig 2 (by decide)
    simp only [fieldsInstr, instrOf, encode, List.headD_cons, instrWord, source_mode, mode_destOf (hdest 2 rfl),
      h0, h1, h2]
    simp only [Opcode.paramCount, Opcode.number] at hnum hr ⊢
    omega
  | jt | jf =>
    have h0 := hdig 0 (by decide)
    have h1 := hdig 1 (by decide)
    simp only [fieldsInstr, instrOf, encode, List.headD_cons, instrWord, source_mode, h0, h1]
    simp only [Opcode.paramCount, Opcode.number] at hnum hr ⊢
    omega
  | out | arb =>
    have h0 := hdig 0 (by decide)
    simp only [fieldsInstr, instrOf, encode, List.headD_cons, instrWord, source_mode, h0]
    simp only [Opcode.paramCount, Opcode.number] at hnum hr ⊢
    omega
  | inp =>
    have h0 := hdig 0 (by decide)
    simp only [fieldsInstr, instrOf, encode, List.headD_cons, instrWord, mode_destOf (hdest 0 rfl), h0]
    simp only [Opcode.paramCount, Opcode.number] at hnum hr ⊢
    omega
  | hlt =>
    simp only [fieldsInstr, instrOf, encode, List.headD_cons, instrWord]
    simp only [Opcode.paramCount, Opcode.number] at hnum hr ⊢
    omega

/-- The instruction word of what decodes is the encoder's. -/
theorem headD_encode_of_decode {iw : Int} {ps : List Int} {i : Instr} (h : decode (iw :: ps) = .ok i) :
    (encode i).headD 0 = iw := by
  obtain ⟨w, op, rfl, hnum, rfl, hm, hr, hdest⟩ := decode_ok_fields h
  exact headD_encode_fieldsInstr hnum hm hr hdest

/-- The parameter words that a long enough list gives are the list's Words after the first. -/
theorem map_rawAt_range {iw : Int} {ps : List Int} {n : Nat} (h : n ≤ ps.length) :
    (List.range n).map (rawAt (iw :: ps)) = ps.take n := by
  apply List.ext_getElem
  · simp [h]
  · intro k hk _
    have hlt : k < ps.length := by simp at hk; omega
    simp [hlt]

/-- Settles O8: the instruction word and the parameter words are each read back. -/
theorem encodeOfDecode : Obligations.EncodeOfDecode := by
  intro ws i h hlen
  cases ws with
  | nil => simp [Instr.length] at hlen
  | cons iw ps =>
    obtain ⟨op, w, hfields⟩ := decode_ok h
    have hparams := decodeFields_params hfields
    have hn : i.opcode.paramCount ≤ ps.length := by simp only [Instr.length, List.length_cons] at hlen; omega
    rw [encode_eq_cons, headD_encode_of_decode h, hparams, map_rawAt_range hn, Instr.length, Nat.add_comm,
      List.take_succ_cons]

/-! ### The table of the legal words -/

/-- The instruction words that the encoder makes are in the table of R59. -/
theorem instrWord_mem_legalWords :
    (∀ op ∈ [Opcode.add, .mul, .lt, .eq], ∀ a < 3, ∀ b < 3, ∀ c ∈ [0, 2], instrWord op a b c ∈ legalWords) ∧
    (∀ op ∈ [Opcode.jt, .jf], ∀ a < 3, ∀ b < 3, instrWord op a b 0 ∈ legalWords) ∧
    (∀ op ∈ [Opcode.out, .arb], ∀ a < 3, instrWord op a 0 0 ∈ legalWords) ∧
    (∀ a ∈ [0, 2], instrWord .inp a 0 0 ∈ legalWords) ∧ instrWord .hlt 0 0 0 ∈ legalWords := by
  decide

theorem digit_mode_mem (d : Dest) : d.mode.digit ∈ [0, 2] := by cases d <;> simp [Dest.mode, Mode.digit]

theorem headD_encode_mem_legalWords (i : Instr) : (encode i).headD 0 ∈ legalWords := by
  obtain ⟨h3, h2, h1, hin, hhlt⟩ := instrWord_mem_legalWords
  cases i with
  | add a b d | mul a b d | lt a b d | eq a b d =>
    exact h3 _ (by decide) _ (mode_digit_lt _) _ (mode_digit_lt _) _ (digit_mode_mem d)
  | jt a b | jf a b => exact h2 _ (by decide) _ (mode_digit_lt _) _ (mode_digit_lt _)
  | out a | arb a => exact h1 _ (by decide) _ (mode_digit_lt _)
  | inp d => exact hin _ (digit_mode_mem d)
  | hlt => exact hhlt

/-- Every word of the table of R59 meets the rules R50 to R58, and its destination is not Immediate. -/
theorem fields_of_mem_legalWords :
    ∀ iw ∈ legalWords, selectsRow iw ∧ modesLegal iw ∧ reservedZero iw ∧ ¬ immediateDest iw := by
  unfold selectsRow modesLegal reservedZero immediateDest
  decide

theorem decode_ok_iff_mem_legalWords (iw : Int) (ps : List Int) :
    (∃ i, decode (iw :: ps) = .ok i) ↔ iw ∈ legalWords := by
  constructor
  · rintro ⟨i, h⟩
    exact headD_encode_of_decode h ▸ headD_encode_mem_legalWords i
  · intro h
    obtain ⟨hrow, hm, hr, hi⟩ := fields_of_mem_legalWords iw h
    cases hd : decode (iw :: ps) with
    | ok i => exact ⟨i, rfl⟩
    | error c =>
      obtain rfl | rfl | rfl | rfl := decode_error hd
      · exact absurd hrow ((decode_illegalOpcode_iff iw ps).mp hd)
      · exact absurd hm ((decode_badModeDigit_iff iw ps).mp hd).2
      · exact absurd hr ((decode_reservedModeDigit_iff iw ps).mp hd).2.2
      · exact absurd ((decode_immediateDestination_iff iw ps).mp hd).2.2.2 hi

/-- The otherwise legal words of ADD, MUL, LT, EQ and IN with an Immediate destination. -/
theorem fields_of_immediate_destination :
    (∀ opc ∈ ([1, 2, 7, 8] : List Int), ∀ a ∈ ([0, 1, 2] : List Int), ∀ b ∈ ([0, 1, 2] : List Int),
      selectsRow (opc + 100 * a + 1000 * b + 10000) ∧ modesLegal (opc + 100 * a + 1000 * b + 10000) ∧
      reservedZero (opc + 100 * a + 1000 * b + 10000) ∧ immediateDest (opc + 100 * a + 1000 * b + 10000)) ∧
    selectsRow 103 ∧ modesLegal 103 ∧ reservedZero 103 ∧ immediateDest 103 := by
  unfold selectsRow modesLegal reservedZero immediateDest
  decide

/-- Settles O6: what decodes is what the encoder makes, and the encoder makes the words of the table. -/
theorem legalWordsAreExactlyTheTable : Obligations.LegalWordsAreExactlyTheTable := by
  refine ⟨by decide, by decide, decode_ok_iff_mem_legalWords, ?_, ?_, ?_⟩
  · intro s hs hmem
    cases hf : fetch s with
    | ok i => exact absurd ((decode_ok_iff_mem_legalWords _ _).mp ⟨i, hf⟩) hmem
    | error c =>
      exact ⟨c, by simpa using decode_error hf, step_of_fetch_error hs hf⟩
  · intro opc a b ps hopc ha hb
    exact (decode_immediateDestination_iff _ ps).mpr (fields_of_immediate_destination.1 opc hopc a ha b hb)
  · intro ps
    exact (decode_immediateDestination_iff _ ps).mpr fields_of_immediate_destination.2

/-- Settles O9: each by running the decoder. -/
theorem sampleWordsDecode : Obligations.SampleWordsDecode := by
  unfold Obligations.SampleWordsDecode
  decide

/-- A word `99 + 100*k` with `k > 0` selects HLT and has a digit above it. -/
theorem decode_hlt_reserved {k : Nat} (hk : 0 < k) (ps : List Int) :
    decode (((99 + 100 * k : Nat) : Int) :: ps) = .error .reservedModeDigit := by
  have hop : ((99 + 100 * k : Nat) : Int) % 100 = Opcode.hlt.number := by simp only [Opcode.number]; omega
  have hrow : selectsRow ((99 + 100 * k : Nat) : Int) := ⟨Int.natCast_nonneg _, hop ▸ number_mem .hlt⟩
  refine (decode_reservedModeDigit_iff _ ps).mpr ⟨hrow, (modesLegal_natCast hop).mpr ?_, ?_⟩
  · intro j hj
    simp [Opcode.paramCount] at hj
  · rw [reservedZero_natCast hop]
    simp only [Opcode.paramCount]
    omega

/-- Settles O33: HLT has no parameter, so nothing before its halt can fault. -/
theorem hltEndsTheRun : Obligations.HltEndsTheRun :=
  ⟨rfl, fun _ ps hk => decode_hlt_reserved hk ps, fun _ => rfl, fun _ => rfl⟩

end Sys2Proof.Machine
end

section
/-! PROOFS. What an instruction's effect is in each field of the state, the frames of the ten instructions, and the
invariant: reset meets it and every step keeps it. -/

namespace Sys2Proof.Machine

open Sys2Proof.Spec

/-! ### Memory and extent -/

/-- The one cell an instruction wrote: its destination's, with its result. -/
def WroteResult (s t : State) (i : Instr) : Prop :=
  ∃ d ad v, i.dest = some d ∧ resolveDest s d = .ok ad ∧ Stores s i d v ∧
    t.mem = s.mem.write ad v ∧ t.ext = max s.ext (ad + 1)

theorem Jumped.mem_ext {taken : Int → Bool} {a b : Source} {s t : State} (h : Jumped taken a b s t) :
    t.mem = s.mem ∧ t.ext = s.ext := by
  obtain ⟨_, _, _, _, _, ⟨_, _, rfl⟩ | ⟨_, _, rfl⟩⟩ := h <;> simp

/-- An instruction leaves memory and extent alone, or writes its result. -/
theorem Effect.mem_ext {s t : State} {i : Instr} (h : Effect s t i) :
    (t.mem = s.mem ∧ t.ext = s.ext) ∨ WroteResult s t i := by
  cases i with
  | add a b d =>
    obtain ⟨v0, v1, ad, r, h0, h1, hd, _, _, hr, rfl⟩ := h
    exact .inr ⟨d, ad, r, rfl, hd, .inl ⟨a, b, v0, v1, h0, h1, .inl ⟨rfl, hr⟩⟩, rfl, rfl⟩
  | mul a b d =>
    obtain ⟨v0, v1, ad, r, h0, h1, hd, _, _, hr, rfl⟩ := h
    exact .inr ⟨d, ad, r, rfl, hd, .inl ⟨a, b, v0, v1, h0, h1, .inr (.inl ⟨rfl, hr⟩)⟩, rfl, rfl⟩
  | lt a b d =>
    obtain ⟨v0, v1, ad, r, h0, h1, hd, _, _, hr, rfl⟩ := h
    exact .inr ⟨d, ad, r, rfl, hd, .inl ⟨a, b, v0, v1, h0, h1, .inr (.inr (.inl ⟨rfl, hr⟩))⟩, rfl, rfl⟩
  | eq a b d =>
    obtain ⟨v0, v1, ad, r, h0, h1, hd, _, _, hr, rfl⟩ := h
    exact .inr ⟨d, ad, r, rfl, hd, .inl ⟨a, b, v0, v1, h0, h1, .inr (.inr (.inr ⟨rfl, hr⟩))⟩, rfl, rfl⟩
  | inp d =>
    obtain ⟨ad, hd, _, _, rfl⟩ := h
    rcases input_cases ad (s.pc + 2) s with ⟨v, hv, hin⟩ | ⟨_, hin⟩ | ⟨_, hin⟩ | ⟨_, hin⟩
    · exact .inr ⟨d, ad, v, rfl, hd, .inr ⟨rfl, hv⟩, by simp [hin], by simp [hin]⟩
    all_goals exact .inl (by simp [hin])
  | jt | jf => exact .inl (Jumped.mem_ext h)
  | out a => obtain ⟨_, _, _, _, rfl⟩ := h; simp
  | arb a => obtain ⟨_, _, _, _, _, rfl⟩ := h; simp
  | hlt => obtain rfl := h; simp

/-- The result an instruction writes is a Word: it was checked, is 0 or 1, or was delivered by the port. -/
theorem inWord_of_stores {s : State} {i : Instr} {d : Dest} {v : Int} (hw : s.wordBits.legal = true)
    (h : Stores s i d v) : s.wordBits.inWord v = true := by
  rcases h with ⟨_, _, _, _, _, _, ⟨_, _, hv⟩ | ⟨_, _, hv⟩ | ⟨_, hv⟩ | ⟨_, hv⟩⟩ | ⟨_, hport⟩
  · exact hv
  · exact hv
  · exact hv ▸ inWord_small hw (by split <;> decide) (by split <;> decide)
  · exact hv ▸ inWord_small hw (by split <;> decide) (by split <;> decide)
  · exact portAnswer_word hport

/-! ### Output trace, answers, status and cause -/

theorem Stored.env {rel : Int → Int → Int → Prop} {a b : Source} {d : Dest} {s t : State}
    (h : Stored rel a b d s t) :
    t.outTrace = s.outTrace ∧ t.answers = s.answers ∧ t.draws = s.draws ∧ t.cause = s.cause := by
  obtain ⟨_, _, _, _, _, _, _, _, _, _, rfl⟩ := h
  simp

theorem Jumped.env {taken : Int → Bool} {a b : Source} {s t : State} (h : Jumped taken a b s t) :
    t.outTrace = s.outTrace ∧ t.answers = s.answers ∧ t.draws = s.draws ∧ t.cause = s.cause := by
  obtain ⟨_, _, _, _, _, ⟨_, _, rfl⟩ | ⟨_, _, rfl⟩⟩ := h <;> simp

@[simp] theorem input_outTrace (ad npc : Nat) (s : State) : (input ad npc s).outTrace = s.outTrace := by
  rcases input_cases ad npc s with ⟨_, _, h⟩ | ⟨_, h⟩ | ⟨_, h⟩ | ⟨_, h⟩ <;> simp [h]

@[simp] theorem input_answers (ad npc : Nat) (s : State) :
    (input ad npc s).answers = s.afterRequest.answers := by
  rcases input_cases ad npc s with ⟨_, _, h⟩ | ⟨_, h⟩ | ⟨_, h⟩ | ⟨_, h⟩ <;> simp [h]

@[simp] theorem input_draws (ad npc : Nat) (s : State) : (input ad npc s).draws = s.afterRequest.draws := by
  rcases input_cases ad npc s with ⟨_, _, h⟩ | ⟨_, h⟩ | ⟨_, h⟩ | ⟨_, h⟩ <;> simp [h]

/-- The output trace stays, or the instruction is OUT, whose value ends it. -/
theorem Effect.outTrace {s t : State} {i : Instr} (h : Effect s t i) :
    t.outTrace = s.outTrace ∨
      ∃ a v, i = .out a ∧ readSource s a = .ok v ∧ t.outTrace = s.outTrace ++ [v] := by
  cases i with
  | add | mul | lt | eq => exact .inl (Stored.env h).1
  | jt | jf => exact .inl (Jumped.env h).1
  | inp d => obtain ⟨_, _, _, _, rfl⟩ := h; simp
  | out a => obtain ⟨v, hv, _, _, rfl⟩ := h; exact .inr ⟨a, v, rfl, hv, rfl⟩
  | arb a => obtain ⟨_, _, _, _, _, rfl⟩ := h; simp
  | hlt => obtain rfl := h; simp

/-- The answers to come stay, or the instruction is IN, which takes one. -/
theorem Effect.answers {s t : State} {i : Instr} (h : Effect s t i) :
    (t.answers = s.answers ∧ t.draws = s.draws) ∨
      (∃ d, i = .inp d) ∧ t.answers = s.afterRequest.answers ∧ t.draws = s.afterRequest.draws := by
  cases i with
  | add | mul | lt | eq => obtain ⟨_, ha, hd, _⟩ := Stored.env h; exact .inl ⟨ha, hd⟩
  | jt | jf => obtain ⟨_, ha, hd, _⟩ := Jumped.env h; exact .inl ⟨ha, hd⟩
  | inp d => obtain ⟨_, _, _, _, rfl⟩ := h; exact .inr ⟨⟨d, rfl⟩, by simp, by simp⟩
  | out a => obtain ⟨_, _, _, _, rfl⟩ := h; simp
  | arb a => obtain ⟨_, _, _, _, _, rfl⟩ := h; simp
  | hlt => obtain rfl := h; simp

/-- How an effect ends: the run goes on with status and cause as they were, or it is HLT's halt, or an IN whose
answer is `EXHAUSTED` or `CLOSED`. -/
theorem Effect.ends {s t : State} {i : Instr} (h : Effect s t i) :
    (t.status = s.status ∧ t.cause = s.cause) ∨ (i = .hlt ∧ t = stop .halted s) ∨
      ∃ d, i = .inp d ∧ (portAnswer s = .exhausted ∧ t = raise .inputExhausted s.afterRequest ∨
        portAnswer s = .closed ∧ t = stop .inputClosed s.afterRequest) := by
  cases i with
  | add | mul | lt | eq => exact .inl ⟨(Stored.frame h).2.1, (Stored.env h).2.2.2⟩
  | jt | jf => exact .inl ⟨(Jumped.frame h).2.1, (Jumped.env h).2.2.2⟩
  | inp d =>
    obtain ⟨ad, _, _, _, rfl⟩ := h
    rcases input_cases ad (s.pc + 2) s with ⟨_, _, hin⟩ | ⟨_, hin⟩ | ⟨hp, hin⟩ | ⟨hp, hin⟩
    · exact .inl (by simp [hin])
    · exact .inl (by simp [hin])
    · exact .inr (.inr ⟨d, rfl, .inl ⟨hp, hin⟩⟩)
    · exact .inr (.inr ⟨d, rfl, .inr ⟨hp, hin⟩⟩)
  | out a => obtain ⟨_, _, _, _, rfl⟩ := h; simp
  | arb a => obtain ⟨_, _, _, _, _, rfl⟩ := h; simp
  | hlt => obtain rfl := h; simp

/-! ### The frames of the instructions -/

/-- Settles O34: an instruction with a destination has its effect, whose fields are known, or raises a fault. -/
theorem storingInstructionsFrame : Obligations.StoringInstructionsFrame := by
  intro i d s t hi h
  have hdest : i.dest = some d := by
    rcases hi with ⟨_, _, rfl⟩ | ⟨_, _, rfl⟩ | ⟨_, _, rfl⟩ | ⟨_, _, rfl⟩ | rfl <;> rfl
  rcases exec_cases h with heff | ⟨c, _, rfl⟩
  · refine ⟨heff.rb.resolve_right ?_, heff.outTrace.resolve_right ?_, heff.wordBits, ?_, ?_, ?_, ?_⟩
    · rintro ⟨_, _, rfl, _⟩; simp [Instr.dest] at hdest
    · rintro ⟨_, _, rfl, _⟩; simp [Instr.dest] at hdest
    · intro x hx
      rcases heff.mem_ext with ⟨hmem, _⟩ | ⟨d', ad, v, hd', had, _, hmem, _⟩
      · rw [hmem]
      · obtain rfl := Option.some.inj (hdest.symm.trans hd')
        rw [hmem, read_write_other s.mem (by rintro rfl; exact hx had) v]
    · rcases heff.mem_ext with ⟨_, hext⟩ | ⟨d', ad, v, hd', had, _, _, hext⟩
      · exact .inl hext
      · obtain rfl := Option.some.inj (hdest.symm.trans hd')
        exact .inr ⟨ad, had, hext⟩
    · rcases heff.ends with hends | ⟨rfl, _⟩ | ⟨d', rfl, ⟨_, rfl⟩ | ⟨_, rfl⟩⟩
      · exact .inl hends
      · simp [Instr.dest] at hdest
      · exact .inr (.inl ⟨_, rfl, rfl, by simp⟩)
      · obtain rfl := Option.some.inj hdest
        exact .inr (.inr ⟨rfl, by simp⟩)
    · intro hne
      refine heff.answers.resolve_right ?_
      rintro ⟨⟨d', rfl⟩, _⟩
      exact hne (congrArg _ (Option.some.inj hdest))
  · refine ⟨rfl, rfl, rfl, fun _ _ => rfl, .inl rfl, .inr (.inl ⟨c, rfl, rfl, rfl⟩), fun _ => ⟨rfl, rfl⟩⟩

/-- Settles O35: an instruction without a destination has its effect, whose fields are known, or raises a fault. -/
theorem otherInstructionsFrame : Obligations.OtherInstructionsFrame := by
  intro i s t hi h
  have hdest : i.dest = none := by
    rcases hi with ⟨_, rfl⟩ | ⟨_, _, rfl⟩ | ⟨_, _, rfl⟩ | ⟨_, rfl⟩ | rfl <;> rfl
  have hnotIn : ∀ d, i ≠ .inp d := by rintro d rfl; simp [Instr.dest] at hdest
  rcases exec_cases h with heff | ⟨c, _, rfl⟩
  · obtain ⟨hmem, hext⟩ := heff.mem_ext.resolve_right (by rintro ⟨d, _, _, hd, _⟩; simp [hdest] at hd)
    obtain ⟨hans, hdraws⟩ := heff.answers.resolve_right (by rintro ⟨⟨d, hd⟩, _⟩; exact hnotIn d hd)
    refine ⟨hmem, hext, hans, hdraws, heff.wordBits, fun hne => heff.rb.resolve_right ?_,
      fun hne => heff.outTrace.resolve_right ?_, ?_⟩
    · rintro ⟨a, _, ha, _⟩; exact hne a ha
    · rintro ⟨a, _, ha, _⟩; exact hne a ha
    · rcases heff.ends with hends | ⟨rfl, rfl⟩ | ⟨d, hd, _⟩
      · exact .inl hends
      · exact .inr (.inr ⟨rfl, rfl, rfl, rfl⟩)
      · exact absurd hd (hnotIn d)
  · exact ⟨rfl, rfl, rfl, rfl, rfl, fun _ => rfl, fun _ => rfl, .inr (.inl ⟨c, rfl, rfl, rfl, rfl, rfl⟩)⟩

/-! ### The step, field by field -/

/-- A step leaves memory and extent alone, or writes the fetched instruction's result. -/
theorem step_mem_ext {s t : State} (h : step s = .next t) :
    (t.mem = s.mem ∧ t.ext = s.ext) ∨ ∃ i, fetch s = .ok i ∧ WroteResult s t i := by
  obtain ⟨_, ⟨_, rfl⟩ | ⟨_, c, _, rfl⟩ | ⟨_, i, hf, he⟩⟩ := step_cases h
  · simp
  · simp
  · rcases exec_cases he with heff | ⟨c, _, rfl⟩
    · exact heff.mem_ext.imp_right fun hw => ⟨i, hf, hw⟩
    · simp

/-- A step leaves the output trace, or runs an OUT. -/
theorem step_outTrace {s t : State} (h : step s = .next t) :
    t.outTrace = s.outTrace ∨
      ∃ a v, fetch s = .ok (.out a) ∧ readSource s a = .ok v ∧ t.outTrace = s.outTrace ++ [v] := by
  obtain ⟨_, ⟨_, rfl⟩ | ⟨_, c, _, rfl⟩ | ⟨_, i, hf, he⟩⟩ := step_cases h
  · simp
  · simp
  · rcases exec_cases he with heff | ⟨c, _, rfl⟩
    · refine heff.outTrace.imp_right ?_
      rintro ⟨a, v, rfl, hv⟩
      exact ⟨a, v, hf, hv⟩
    · simp

/-- The causes of the phases before IN's request: the decoder's, and the range faults. -/
def PhaseFault (s : State) (c : FaultCause) : Prop := c ≠ .inputExhausted ∧ (c = .wordOverflow → s.wordBits ≠ .inf)

theorem phaseFault_of_decode {s : State} {c : FaultCause} (h : fetch s = .error c) : PhaseFault s c := by
  rcases decode_error h with rfl | rfl | rfl | rfl <;> simp [PhaseFault]

theorem phaseFault_of_range {s : State} {c : FaultCause} (h : RangeFault s c) : PhaseFault s c := by
  rcases h with rfl | ⟨rfl, hw⟩
  · simp [PhaseFault]
  · exact ⟨by simp, fun _ => hw⟩

/-- The fetched instruction is an IN whose own checks pass: its step makes its request (`43_io.md` R78). -/
def Asks (s : State) : Prop :=
  ∃ d ad npc, fetch s = .ok (.inp d) ∧ checkParams s 1 = .ok () ∧ resolveDest s d = .ok ad ∧ advance s 2 = .ok npc

theorem Effect.asks {s t : State} {d : Dest} (hf : fetch s = .ok (.inp d)) (h : Effect s t (.inp d)) : Asks s := by
  obtain ⟨ad, hd, hp, hn, _⟩ := h
  exact ⟨d, ad, s.pc + 2, hf, checkParams_eq_ok.mpr hp, hd, advance_eq_ok.mpr ⟨rfl, hn⟩⟩

/-- What a step from `s` to `t` was, by the status it ends with. -/
def EndsAs (s t : State) : Status → Prop
  | .running => t.cause = s.cause
  | .halted => s.pc < s.ext ∧ fetch s = .ok .hlt ∧ t = stop .halted s
  | .endOfStream => s.ext ≤ s.pc ∧ t = stop .endOfStream s
  | .inputClosed => s.pc < s.ext ∧ Asks s ∧ portAnswer s = .closed ∧ t = stop .inputClosed s.afterRequest
  | .faulted => ∃ c, PhaseFault s c ∧ t = raise c s ∨
      c = .inputExhausted ∧ s.pc < s.ext ∧ Asks s ∧ portAnswer s = .exhausted ∧ t = raise c s.afterRequest

/-- Every way a step ends. -/
theorem step_endsAs {s t : State} (h : step s = .next t) : EndsAs s t t.status := by
  obtain ⟨hrun, ⟨he, rfl⟩ | ⟨_, c, hf, rfl⟩ | ⟨hext, i, hf, hex⟩⟩ := step_cases h
  · exact ⟨he, rfl⟩
  · exact ⟨c, .inl ⟨phaseFault_of_decode hf, rfl⟩⟩
  · rcases exec_cases hex with heff | ⟨c, hc, rfl⟩
    · rcases heff.ends with ⟨hst, hcause⟩ | ⟨rfl, rfl⟩ | ⟨d, rfl, ⟨hp, rfl⟩ | ⟨hp, rfl⟩⟩
      · rw [hst.trans hrun]; exact hcause
      · exact ⟨hext, hf, rfl⟩
      · exact ⟨_, .inr ⟨rfl, hext, heff.asks hf, hp, rfl⟩⟩
      · exact ⟨hext, heff.asks hf, hp, rfl⟩
    · exact ⟨c, .inl ⟨phaseFault_of_range hc, rfl⟩⟩

/-- A step faults and sets a cause, or does neither. -/
theorem step_status_cause {s t : State} (h : step s = .next t) :
    (t.status = .faulted ∧ ∃ c, t.cause = some c) ∨ (t.status ≠ .faulted ∧ t.cause = s.cause) := by
  have hend := step_endsAs h
  generalize t.status = st at hend ⊢
  cases st with
  | running => exact .inr ⟨by decide, hend⟩
  | halted => obtain ⟨_, _, rfl⟩ := hend; exact .inr ⟨by decide, rfl⟩
  | endOfStream => obtain ⟨_, rfl⟩ := hend; exact .inr ⟨by decide, rfl⟩
  | inputClosed => obtain ⟨_, _, _, rfl⟩ := hend; exact .inr ⟨by decide, by simp⟩
  | faulted => obtain ⟨c, ⟨_, rfl⟩ | ⟨_, _, _, _, rfl⟩⟩ := hend <;> exact .inl ⟨rfl, c, rfl⟩

/-! ### The invariant -/

/-- Every step keeps every clause of the invariant. -/
theorem CoreInv.step {s t : State} (hinv : CoreInv s) (h : step s = .next t) : CoreInv t := by
  have hwidth := step_wordBits h
  obtain ⟨hrun, _⟩ := step_cases h
  have hmem : t.mem.wf = true ∧ (∀ a v, (a, v) ∈ t.mem → s.wordBits.inWord v = true) ∧
      (∀ a v, (a, v) ∈ t.mem → a < t.ext) ∧ s.wordBits.aboveMax ((t.ext : Int) - 1) = false := by
    rcases step_mem_ext h with ⟨hm, he⟩ | ⟨i, hf, d, ad, v, hid, had, hst, hm, he⟩
    · rw [hm, he]
      exact ⟨hinv.mem_wf, hinv.mem_words, hinv.mem_below_ext, hinv.ext_bound⟩
    · rw [hm, he]
      refine ⟨write_wf hinv.mem_wf ad v, ?_, ?_, ?_⟩
      · intro a u hau
        rcases mem_write hau with hcell | hold
        · obtain ⟨rfl, rfl⟩ := Prod.mk.inj hcell
          exact inWord_of_stores hinv.width hst
        · exact hinv.mem_words a u hold
      · intro a u hau
        rcases mem_write hau with hcell | hold
        · obtain ⟨rfl, rfl⟩ := Prod.mk.inj hcell
          omega
        · have := hinv.mem_below_ext a u hold
          omega
      · rcases Nat.le_total s.ext (ad + 1) with hle | hle
        · rw [Nat.max_eq_right hle]
          simpa using resolveDest_address had
        · rw [Nat.max_eq_left hle]
          exact hinv.ext_bound
  obtain ⟨hwf, hwords, hbelow, hbound⟩ := hmem
  refine ⟨?_, step_pc_address hinv h, ?_, hwf, ?_, hbelow, ?_, ?_, ?_⟩
  · exact hwidth ▸ hinv.width
  · rw [hwidth]
    rcases step_rb h with hrb | ⟨_, _, _, _, _, hw⟩
    · exact hrb ▸ hinv.rb_word
    · exact hw
  · rw [hwidth]; exact hwords
  · rw [hwidth]; exact hbound
  · have hnone : s.cause = none := by
      by_contra hc
      have := hinv.cause_iff.mp hc
      simp [hrun] at this
    rcases step_status_cause h with ⟨hst, c, hc⟩ | ⟨hst, hc⟩
    · simp [hst, hc]
    · simp [hst, hc, hnone]
  · rw [hwidth]
    rcases step_outTrace h with ho | ⟨a, v, hf, hv, ho⟩
    · exact ho ▸ hinv.out_words
    · intro u hu
      rw [ho, List.mem_append, List.mem_singleton] at hu
      rcases hu with hold | rfl
      · exact hinv.out_words u hold
      · exact hinv.readSource_word hf (by simp [Instr.params]) hv

/-- Settles O39: clause by clause, what a step writes being its instruction's result. -/
theorem everyStepKeepsTheInvariant : Obligations.EveryStepKeepsTheInvariant :=
  fun _ _ hinv h => hinv.step h

/-- A cell of a loaded memory is one of the image's, at its place, or was there before. -/
theorem mem_load {m : Memory} {a : Nat} {img : List Int} {c : Nat × Int} (h : c ∈ m.load a img) :
    (c.1 < a + img.length ∧ c.2 ∈ img) ∨ c ∈ m := by
  induction img generalizing m a with
  | nil => exact .inr h
  | cons v rest ih =>
    rw [List.length_cons]
    rcases ih h with ⟨hlt, hmem⟩ | hw
    · exact .inl ⟨by omega, List.mem_cons_of_mem _ hmem⟩
    · rcases mem_write hw with rfl | hold
      · exact .inl ⟨by simp, by simp⟩
      · exact .inr hold

/-- Reset with an image that the spec admits meets the invariant. -/
theorem coreInv_resetWith {w : WordBits} (as : List PortAnswer) (n : Nat) {img : List Int} (hw : w.legal = true)
    (himg : imageOk w img = true) : CoreInv (resetWith w as n img) := by
  obtain ⟨hwords, hlen⟩ : (∀ v ∈ img, w.inWord v = true) ∧ w.aboveMax ((img.length : Int) - 1) = false := by
    simpa [imageOk] using himg
  have hzero : w.inWord 0 = true := inWord_small hw (by decide) (by decide)
  have hcell : ∀ {c : Nat × Int}, c ∈ (resetWith w as n img).mem → c.1 < img.length ∧ c.2 ∈ img := by
    intro c hc
    have := (mem_load hc).resolve_right (by simp)
    simpa using this
  exact {
    width := hw
    pc_address := not_aboveMax_of_inWord hzero
    rb_word := hzero
    mem_wf := load_wf rfl 0 img
    mem_words := fun a v hc => hwords v (hcell hc).2
    mem_below_ext := fun a v hc => (hcell hc).1
    ext_bound := hlen
    cause_iff := by simp [resetWith, State.reset]
    out_words := by simp [resetWith, State.reset] }

/-- Settles O38: the image's Words are the only cells, and the state of the host's interface is reset with no image. -/
theorem resetMeetsTheInvariant : Obligations.ResetMeetsTheInvariant :=
  ⟨coreInv_resetWith (w := .bits 64) (img := []) [] 0 rfl rfl,
    fun _ as n _ hw himg => coreInv_resetWith as n hw himg⟩

end Sys2Proof.Machine
end

section
/-! PROOFS. The step as a whole: when there is one, what it runs, how each end is entered, how `pc` and `ext` move, and
what it neither reads nor changes (`40_execution_loop.md`, `60_exceptions.md`). -/

namespace Sys2Proof.Machine

open Sys2Proof.Spec

/-! ### When there is a step, and what it runs -/

/-- Where a running core inside its extent fetches an instruction, its step is that instruction's meaning. -/
theorem step_of_fetch {s : State} {i : Instr} (h : Decodes s) (hf : fetch s = .ok i) : step s = exec i s := by
  rw [step_running h.1 h.2, hf]

theorem step_of_extent {s : State} (hr : s.status = .running) (he : s.ext ≤ s.pc) :
    step s = .next (stop .endOfStream s) := by
  unfold step
  rw [hr]
  exact if_pos he

theorem step_of_ended {s : State} (h : s.status ≠ .running) : step s = .fault .notRunning := by
  unfold step
  split
  · next hr => exact absurd hr h
  all_goals rfl

/-- Every instruction has a next state. -/
theorem exec_next (i : Instr) (s : State) : ∃ t, exec i s = .next t := by
  cases i <;> exact ⟨_, rfl⟩

theorem step_of_running {s : State} (hr : s.status = .running) : ∃ t, step s = .next t := by
  by_cases he : s.pc < s.ext
  · cases hf : fetch s with
    | error c => exact ⟨raise c s, step_of_fetch_error ⟨hr, he⟩ hf⟩
    | ok i => exact step_of_fetch ⟨hr, he⟩ hf ▸ exec_next i s
  · exact ⟨_, step_of_extent hr (Nat.not_lt.mp he)⟩

/-- Settles O10: the fetched Words are those at `pc`. -/
theorem stepRunsTheDecodedInstruction : Obligations.StepRunsTheDecodedInstruction :=
  fun _ _ hr he hdec => step_of_fetch ⟨hr, he⟩ hdec

theorem length_encode (i : Instr) : (encode i).length = i.length := by cases i <;> rfl

/-- Where the Words of an encoding stand at `pc`, they are what is fetched first. -/
theorem fetchWords_eq_encode_append {s : State} {i : Instr}
    (h : ∀ k v, (encode i)[k]? = some v → s.mem.read (s.pc + k) = v) :
    fetchWords s = encode i ++ (fetchWords s).drop i.length := by
  have hlen : i.length ≤ 4 := by
    have := paramCount_le i.opcode
    unfold Instr.length
    omega
  have htake : (fetchWords s).take i.length = encode i := by
    refine List.ext_getElem? fun k => ?_
    rcases Nat.lt_or_ge k i.length with hk | hk
    · have hlt : k < (encode i).length := length_encode i ▸ hk
      have hget : (encode i)[k]? = some (encode i)[k] := List.getElem?_eq_getElem hlt
      rw [List.getElem?_take_of_lt hk, fetchWords_getElem? s (Nat.lt_of_lt_of_le hk hlen), h k _ hget, hget]
    · rw [List.getElem?_eq_none (by simp [hk]), List.getElem?_eq_none (by simp [length_encode, hk])]
  rw [← htake, List.take_append_drop]

/-- Settles O11: the decoder reads an encoding back, whatever follows it. -/
theorem stepRunsTheEncodedInstruction : Obligations.StepRunsTheEncodedInstruction := by
  intro s i hr he h
  refine step_of_fetch ⟨hr, he⟩ ?_
  rw [fetch, fetchWords_eq_encode_append h, decode_encode]

/-- Settles O12: the step compares `ext` with `pc` and reads the Words from `pc` on. -/
theorem fetchComparesPcWithTheExtent : Obligations.FetchComparesPcWithTheExtent := by
  refine ⟨fun s hr he => step_of_extent hr he, ?_, fun w as n => step_of_extent rfl (Nat.le_refl 0)⟩
  intro s hr he
  cases hdec : decode [s.mem.read s.pc, s.mem.read (s.pc + 1), s.mem.read (s.pc + 2), s.mem.read (s.pc + 3)] with
  | error c => exact step_of_fetch_error ⟨hr, he⟩ hdec
  | ok i => exact step_of_fetch ⟨hr, he⟩ hdec

/-- Settles O13: a running core stops, faults or runs an instruction, each of which has a next state. -/
theorem stepsExistExactlyWhileRunning : Obligations.StepsExistExactlyWhileRunning :=
  ⟨fun _ => ⟨fun ⟨_, h⟩ => (step_cases h).1, step_of_running⟩, fun _ => step_of_ended⟩

/-! ### IN at its request -/

/-- The state after a request differs in the environment's answers only. -/
theorem afterRequest_eq (s : State) :
    s.afterRequest = { s with answers := s.afterRequest.answers, draws := s.afterRequest.draws } := by
  unfold State.afterRequest
  split <;> rfl

/-- A running core whose IN passes its checks does what the port's answer says. -/
theorem step_of_asks {s : State} (hr : s.status = .running) (he : s.pc < s.ext) (h : Asks s) :
    ∃ ad npc, step s = .next (input ad npc s) := by
  obtain ⟨d, ad, npc, hf, hp, hd, hn⟩ := h
  exact ⟨ad, npc, by simp [step_of_fetch ⟨hr, he⟩ hf, exec, execIn, hp, hd, hn, pure, Except.pure]⟩

theorem step_of_closed {s : State} (hr : s.status = .running) (he : s.pc < s.ext) (h : Asks s)
    (hport : portAnswer s = .closed) : step s = .next (stop .inputClosed s.afterRequest) := by
  obtain ⟨ad, npc, hstep⟩ := step_of_asks hr he h
  rw [hstep, input, hport]

theorem step_of_exhausted {s : State} (hr : s.status = .running) (he : s.pc < s.ext) (h : Asks s)
    (hport : portAnswer s = .exhausted) : step s = .next (raise .inputExhausted s.afterRequest) := by
  obtain ⟨ad, npc, hstep⟩ := step_of_asks hr he h
  rw [hstep, input, hport]

/-! ### The ends of a step -/

/-- Settles O44: OUT's effect alone changes the output trace. -/
theorem onlyOutEmits : Obligations.OnlyOutEmits :=
  fun _ _ h hne => (step_outTrace h).resolve_left hne

/-- Settles O45: IN's effect alone takes an answer, and it is reached when the checks have passed. -/
theorem onlyInAsksThePort : Obligations.OnlyInAsksThePort := by
  intro s t h
  obtain ⟨_, ⟨_, rfl⟩ | ⟨_, c, _, rfl⟩ | ⟨_, i, hf, he⟩⟩ := step_cases h
  · exact .inl ⟨rfl, rfl⟩
  · exact .inl ⟨rfl, rfl⟩
  · rcases exec_cases he with heff | ⟨c, _, rfl⟩
    · rcases heff.answers with hsame | ⟨⟨d, rfl⟩, ha, hd⟩
      · exact .inl hsame
      · exact .inr ⟨ha, hd, heff.asks hf⟩
    · exact .inl ⟨rfl, rfl⟩

/-- Settles O47: a step faults in a phase before the request, or by the answer `EXHAUSTED`. -/
theorem faultsArePrecise : Obligations.FaultsArePrecise := by
  intro s t h hst
  refine ⟨?_, step_of_ended (by simp [hst])⟩
  obtain ⟨c, ⟨_, rfl⟩ | ⟨rfl, _, _, hp, rfl⟩⟩ : EndsAs s t .faulted := hst ▸ step_endsAs h
  · exact ⟨c, rfl, rfl, .inl ⟨rfl, rfl⟩⟩
  · refine ⟨_, rfl, ?_, .inr ⟨rfl, hp, rfl⟩⟩
    rw [afterRequest_eq s]
    rfl

/-- Settles O48: a step stops at the extent, or by the answer `CLOSED`. -/
theorem stopsChangeOnlyTheStatus : Obligations.StopsChangeOnlyTheStatus := by
  rintro s t h (hst | hst)
  · obtain ⟨_, rfl⟩ : EndsAs s t .endOfStream := hst ▸ step_endsAs h
    exact ⟨.inl ⟨rfl, rfl⟩, step_of_ended (by simp)⟩
  · obtain ⟨_, _, hp, rfl⟩ : EndsAs s t .inputClosed := hst ▸ step_endsAs h
    exact ⟨.inr ⟨rfl, hp, rfl⟩, step_of_ended (by simp)⟩

/-- How a step halts: it runs HLT. -/
theorem step_halted_iff {s t : State} (h : step s = .next t) :
    t.status = .halted ↔ s.pc < s.ext ∧ fetch s = .ok .hlt := by
  constructor
  · intro hst
    obtain ⟨he, hf, _⟩ : EndsAs s t .halted := hst ▸ step_endsAs h
    exact ⟨he, hf⟩
  · rintro ⟨he, hf⟩
    obtain rfl := Host.Outcome.next.inj ((step_of_fetch ⟨(step_cases h).1, he⟩ hf).symm.trans h)
    rfl

/-- How a step ends at the end of the stream: `pc` is at or beyond the extent. -/
theorem step_endOfStream_iff {s t : State} (h : step s = .next t) : t.status = .endOfStream ↔ s.ext ≤ s.pc := by
  constructor
  · intro hst
    obtain ⟨he, _⟩ : EndsAs s t .endOfStream := hst ▸ step_endsAs h
    exact he
  · intro he
    obtain rfl := Host.Outcome.next.inj ((step_of_extent (step_cases h).1 he).symm.trans h)
    rfl

/-- How a step closes the run: it is an IN at its request, answered `CLOSED`. -/
theorem step_inputClosed_iff {s t : State} (h : step s = .next t) :
    t.status = .inputClosed ↔ s.pc < s.ext ∧ portAnswer s = .closed ∧ Asks s := by
  constructor
  · intro hst
    obtain ⟨he, ha, hp, _⟩ : EndsAs s t .inputClosed := hst ▸ step_endsAs h
    exact ⟨he, hp, ha⟩
  · rintro ⟨he, hp, ha⟩
    obtain rfl := Host.Outcome.next.inj ((step_of_closed (step_cases h).1 he ha hp).symm.trans h)
    rfl

/-- How a step faults: by fault entry from the state before or after a request. -/
theorem step_faulted_iff {s t : State} (h : step s = .next t) :
    t.status = .faulted ↔ ∃ c, t = raise c s ∨ t = raise c s.afterRequest := by
  constructor
  · intro hst
    obtain ⟨c, hc⟩ : EndsAs s t .faulted := hst ▸ step_endsAs h
    exact ⟨c, hc.imp And.right fun ⟨_, _, _, _, ht⟩ => ht⟩
  · rintro ⟨c, rfl | rfl⟩ <;> rfl

/-- Settles O49: each end by its own lemma, and a step faults exactly when it sets a cause. -/
theorem statusCodesAndEntries : Obligations.StatusCodesAndEntries := by
  refine ⟨rfl, rfl, fun s t h => ⟨step_halted_iff h, step_endOfStream_iff h, step_inputClosed_iff h,
    step_faulted_iff h, fun hnone => ?_⟩⟩
  rcases step_status_cause h with ⟨hst, hc⟩ | ⟨hst, hc⟩
  · exact iff_of_true hst hc
  · exact iff_of_false hst (by simp [hc, hnone])

/-- A cause that a step sets is that of a phase before the request, or that of the answer `EXHAUSTED`. -/
theorem step_sets_cause {s t : State} {c : FaultCause} (hnone : s.cause = none) (h : step s = .next t)
    (hc : t.cause = some c) :
    PhaseFault s c ∨ c = .inputExhausted ∧ s.pc < s.ext ∧ Asks s ∧ portAnswer s = .exhausted := by
  obtain ⟨hst, _⟩ := (step_status_cause h).resolve_right fun ⟨_, hsame⟩ => by simp [hsame, hnone] at hc
  obtain ⟨c', ⟨hphase, rfl⟩ | ⟨rfl, he, ha, hp, rfl⟩⟩ : EndsAs s t .faulted := hst ▸ step_endsAs h
  · exact .inl (Option.some.inj hc ▸ hphase)
  · exact .inr ⟨(Option.some.inj hc).symm, he, ha, hp⟩

/-- Settles O50: no phase before the request raises this cause. -/
theorem inputExhaustedIsRaisedByInAlone : Obligations.InputExhaustedIsRaisedByInAlone := by
  refine ⟨rfl, fun s t hnone h => ⟨fun hc => ?_, ?_⟩⟩
  · obtain ⟨_, he, ha, hp⟩ := (step_sets_cause hnone h hc).resolve_left fun hphase => hphase.1 rfl
    exact ⟨he, hp, ha⟩
  · rintro ⟨he, hp, ha⟩
    obtain rfl := Host.Outcome.next.inj ((step_of_exhausted (step_cases h).1 he ha hp).symm.trans h)
    rfl

/-- Settles O51: each phase raises this cause for a Word or an address above `WMAX` or below `WMIN`, and with `inf`
there is none. -/
theorem unboundedWordsNeverOverflow : Obligations.UnboundedWordsNeverOverflow := by
  refine ⟨rfl, fun s t hinf hnone h hc => ?_⟩
  rcases step_sets_cause hnone h hc with hphase | ⟨hexhausted, _⟩
  · exact hphase.2 rfl hinf
  · simp at hexhausted

/-- Settles O55: by the two cases of the status. -/
theorem hostReadsTheCoreAfterAStop : Obligations.HostReadsTheCoreAfterAStop :=
  fun _ => ⟨rfl, rfl, fun hr => if_pos hr, fun hr => if_neg hr⟩

/-! ### How `pc` moves -/

/-- A jump that completed and whose condition holds went to the value of its second parameter. -/
theorem Jumped.of_taken {taken : Int → Bool} {a b : Source} {s t : State} {v0 : Int} (h : Jumped taken a b s t)
    (hv : readSource s a = .ok v0) (ht : taken v0 = true) :
    ∃ v1, readSource s b = .ok v1 ∧ 0 ≤ v1 ∧ t.pc = v1.toNat := by
  obtain ⟨u, v1, hu, h1, _, hor⟩ := h
  obtain rfl := Except.ok.inj (hv.symm.trans hu)
  rcases hor with ⟨_, hpos, rfl⟩ | ⟨hnot, _⟩
  · exact ⟨v1, h1, hpos, rfl⟩
  · simp [ht] at hnot

/-- A jump that completed and whose condition fails fell through. -/
theorem Jumped.of_not_taken {taken : Int → Bool} {a b : Source} {s t : State} (h : Jumped taken a b s t)
    (hnot : ∀ v0, readSource s a = .ok v0 → taken v0 = false) :
    s.wordBits.aboveMax ((s.pc : Int) + 3) = false ∧ t.pc = s.pc + 3 := by
  obtain ⟨v0, _, h0, _, _, ⟨ht, _⟩ | ⟨_, hn, rfl⟩⟩ := h
  · simp [hnot v0 h0] at ht
  · exact ⟨hn, rfl⟩

/-- The effect of a taken jump. -/
theorem Effect.pc_of_taken {s t : State} {i : Instr} {a b : Source} {v0 : Int} (h : Effect s t i)
    (hi : i = .jt a b ∧ v0 ≠ 0 ∨ i = .jf a b ∧ v0 = 0) (hv : readSource s a = .ok v0) :
    ∃ v1, readSource s b = .ok v1 ∧ 0 ≤ v1 ∧ t.pc = v1.toNat := by
  rcases hi with ⟨rfl, hne⟩ | ⟨rfl, hz⟩
  · exact Jumped.of_taken h hv (by simp [isNonzero, hne])
  · exact Jumped.of_taken h hv (by simp [isZero, hz])

/-- No jump of `i` is taken at `s`. -/
def NotTaken (s : State) (i : Instr) : Prop :=
  (∀ a b v0, i = .jt a b → readSource s a = .ok v0 → v0 = 0) ∧
    ∀ a b v0, i = .jf a b → readSource s a = .ok v0 → v0 ≠ 0

/-- The effect of an instruction that falls through: the next instruction has an address, and `pc` goes to it unless
an IN waits or ends the run. -/
theorem Effect.pc_of_not_taken {s t : State} {i : Instr} (h : Effect s t i) (hnot : NotTaken s i) (hhlt : i ≠ .hlt) :
    s.wordBits.aboveMax ((s.pc : Int) + i.length) = false ∧
      (t.pc = s.pc + i.length ∨ (∃ d, i = .inp d) ∧ (portAnswer s = .wait ∨ t.status ≠ .running)) := by
  cases i with
  | add a b d | mul a b d | lt a b d | eq a b d =>
    obtain ⟨_, _, _, _, _, _, _, _, hn, _, rfl⟩ := h
    exact ⟨hn, .inl rfl⟩
  | inp d =>
    obtain ⟨ad, _, _, hn, rfl⟩ := h
    refine ⟨hn, ?_⟩
    rcases input_cases ad (s.pc + 2) s with ⟨_, _, hin⟩ | ⟨hp, _⟩ | ⟨_, hin⟩ | ⟨_, hin⟩
    · exact .inl (by rw [hin]; rfl)
    · exact .inr ⟨⟨d, rfl⟩, .inl hp⟩
    · exact .inr ⟨⟨d, rfl⟩, .inr (by simp [hin])⟩
    · exact .inr ⟨⟨d, rfl⟩, .inr (by simp [hin])⟩
  | out a => obtain ⟨_, _, _, hn, rfl⟩ := h; exact ⟨hn, .inl rfl⟩
  | arb a => obtain ⟨_, _, _, hn, _, rfl⟩ := h; exact ⟨hn, .inl rfl⟩
  | jt a b =>
    obtain ⟨hn, hpc⟩ := Jumped.of_not_taken h fun v0 hv => by simp [isNonzero, hnot.1 a b v0 rfl hv]
    exact ⟨hn, .inl hpc⟩
  | jf a b =>
    obtain ⟨hn, hpc⟩ := Jumped.of_not_taken h fun v0 hv => by simp [isZero, hnot.2 a b v0 rfl hv]
    exact ⟨hn, .inl hpc⟩
  | hlt => exact absurd rfl hhlt

/-- Settles O41: an effect moves `pc` by its instruction's rule, and every other step leaves it. -/
theorem programCounterMovesByRule : Obligations.ProgramCounterMovesByRule := by
  intro s t i hs hf h
  have he : exec i s = .next t := (step_of_fetch hs hf).symm.trans h
  refine ⟨?_, ?_, ?_, ?_, ?_⟩
  · intro hst hheld hjt hjf
    rcases exec_cases he with heff | ⟨c, _, rfl⟩
    · have hhlt : i ≠ .hlt := by
        rintro rfl
        obtain rfl := Host.Outcome.next.inj he
        simp at hst
      obtain ⟨_, hpc | ⟨⟨d, rfl⟩, hport | hne⟩⟩ := heff.pc_of_not_taken ⟨hjt, hjf⟩ hhlt
      · exact hpc
      · exact absurd ⟨hs.1, hs.2, hport, heff.asks hf⟩ hheld
      · exact absurd hst hne
    · simp at hst
  · intro a b v0 hst hi hv
    rcases exec_cases he with heff | ⟨c, _, rfl⟩
    · obtain ⟨v1, h1, hpos, hpc⟩ := heff.pc_of_taken hi hv
      rw [h1, hpc, Int.toNat_of_nonneg hpos]
    · simp at hst
  · rintro (hst | hheld)
    · exact step_pc_of_ended h hst
    · obtain rfl := Host.Outcome.next.inj ((step_of_held hheld).symm.trans h)
      exact afterRequest_pc s
  · intro hjt hjf hhlt hbig
    rcases exec_cases he with heff | ⟨c, _, rfl⟩
    · obtain ⟨hfits, _⟩ := heff.pc_of_not_taken ⟨hjt, hjf⟩ hhlt
      simp [hbig] at hfits
    · exact ⟨rfl, rfl⟩
  · intro a b v0 v1 hi hv h1 hneg
    rcases exec_cases he with heff | ⟨c, _, rfl⟩
    · obtain ⟨u, hu, hpos, _⟩ := heff.pc_of_taken hi hv
      obtain rfl := Except.ok.inj (h1.symm.trans hu)
      omega
    · exact ⟨rfl, rfl⟩

/-! ### What an instruction does not read

A relation between states that agree on `pc`, `rb`, memory and width, and that every update keeps, is kept by every
instruction: none reads more than those four, IN's request apart. -/

/-- Two computations fault alike, or both end in states that `R` relates. -/
inductive EndsAlike (R : State → State → Prop) : Except FaultCause State → Except FaultCause State → Prop where
  | fault (c : FaultCause) : EndsAlike R (.error c) (.error c)
  | done {t t' : State} (h : R t t') : EndsAlike R (.ok t) (.ok t')

/-- A relation on states that no instruction but IN can tell from equality. -/
structure Indistinct (R : State → State → Prop) : Prop where
  fields {s s' : State} : R s s' → s'.pc = s.pc ∧ s'.rb = s.rb ∧ s'.mem = s.mem ∧ s'.wordBits = s.wordBits
  raise {s s' : State} (c : FaultCause) : R s s' → R (raise c s) (raise c s')
  stop {s s' : State} (st : Status) : R s s' → R (stop st s) (stop st s')
  memWrite {s s' : State} (a : Nat) (v : Int) : R s s' → R (s.memWrite a v) (s'.memWrite a v)
  setPc {s s' : State} (a : Nat) : R s s' → R (s.setPc a) (s'.setPc a)
  setRb {s s' : State} (v : Int) : R s s' → R (s.setRb v) (s'.setRb v)
  emit {s s' : State} (v : Int) : R s s' → R (s.emit v) (s'.emit v)

theorem EndsAlike.bind {α : Type} {R : State → State → Prop} (x : Except FaultCause α)
    {f f' : α → Except FaultCause State} (h : ∀ a, EndsAlike R (f a) (f' a)) : EndsAlike R (x >>= f) (x >>= f') := by
  cases x with
  | error c => exact .fault c
  | ok a => exact h a

section
variable {R : State → State → Prop} (hR : Indistinct R) {s s' : State} (h : R s s')
include hR h

theorem Indistinct.checkAddress (ea : Int) : checkAddress s' ea = checkAddress s ea := by
  obtain ⟨_, _, _, hw⟩ := hR.fields h
  simp [Machine.checkAddress, hw]

theorem Indistinct.readSource (a : Source) : readSource s' a = readSource s a := by
  obtain ⟨_, hrb, hmem, _⟩ := hR.fields h
  cases a <;> simp [Machine.readSource, hR.checkAddress h, hrb, hmem]

theorem Indistinct.resolveDest (d : Dest) : resolveDest s' d = resolveDest s d := by
  obtain ⟨_, hrb, _, _⟩ := hR.fields h
  cases d <;> simp [Machine.resolveDest, hR.checkAddress h, hrb]

theorem Indistinct.checkParams (n : Nat) : checkParams s' n = checkParams s n := by
  obtain ⟨hpc, _, _, hw⟩ := hR.fields h
  simp [Machine.checkParams, hpc, hw]

theorem Indistinct.advance (len : Nat) : advance s' len = advance s len := by
  obtain ⟨hpc, _, _, hw⟩ := hR.fields h
  simp [Machine.advance, hpc, hw]

theorem Indistinct.fitWord (v : Int) : fitWord s' v = fitWord s v := by
  obtain ⟨_, _, _, hw⟩ := hR.fields h
  simp [Machine.fitWord, hw]

theorem Indistinct.settle {x y : Except FaultCause State} {t : State} (hxy : EndsAlike R x y)
    (ht : settle s x = .next t) : ∃ t', settle s' y = .next t' ∧ R t t' := by
  cases hxy with
  | fault c => obtain rfl := Host.Outcome.next.inj ht; exact ⟨_, rfl, hR.raise c h⟩
  | done htt => obtain rfl := Host.Outcome.next.inj ht; exact ⟨_, rfl, htt⟩

theorem Indistinct.storeResult {compute : Int → Int → Except FaultCause Int} {a b : Source} {d : Dest} {t : State}
    (ht : storeResult compute a b d s = .next t) : ∃ t', storeResult compute a b d s' = .next t' ∧ R t t' := by
  refine hR.settle h ?_ ht
  rw [hR.checkParams h, hR.readSource h, hR.readSource h, hR.resolveDest h, hR.advance h]
  exact .bind _ fun _ => .bind _ fun _ => .bind _ fun _ => .bind _ fun ad => .bind _ fun npc => .bind _ fun r =>
    .done (hR.setPc npc (hR.memWrite ad r h))

theorem Indistinct.jumpWhen {taken : Int → Bool} {a b : Source} {t : State}
    (ht : jumpWhen taken a b s = .next t) : ∃ t', jumpWhen taken a b s' = .next t' ∧ R t t' := by
  refine hR.settle h ?_ ht
  rw [hR.checkParams h, hR.readSource h, hR.readSource h, hR.advance h]
  refine .bind _ fun _ => .bind _ fun v0 => .bind _ fun v1 => ?_
  split
  · split
    · exact .fault _
    · exact .done (hR.setPc _ h)
  · exact .bind _ fun npc => .done (hR.setPc npc h)

/-- An instruction keeps such a relation, IN where its answer does. -/
theorem Indistinct.exec {i : Instr} {t : State}
    (hin : ∀ d ad npc, i = .inp d → R (input ad npc s) (input ad npc s')) (ht : exec i s = .next t) :
    ∃ t', exec i s' = .next t' ∧ R t t' := by
  cases i with
  | add a b d | mul a b d =>
    have hfit := funext (hR.fitWord h)
    simp only [Machine.exec, execAdd, execMul, hfit] at ht ⊢
    exact hR.storeResult h ht
  | lt a b d | eq a b d => exact hR.storeResult h ht
  | jt a b | jf a b => exact hR.jumpWhen h ht
  | inp d =>
    refine hR.settle h ?_ ht
    rw [hR.checkParams h, hR.resolveDest h, hR.advance h]
    exact .bind _ fun _ => .bind _ fun ad => .bind _ fun npc => .done (hin d ad npc rfl)
  | out a =>
    refine hR.settle h ?_ ht
    rw [hR.checkParams h, hR.readSource h, hR.advance h]
    exact .bind _ fun _ => .bind _ fun v => .bind _ fun npc => .done (hR.setPc npc (hR.emit v h))
  | arb a =>
    refine hR.settle h ?_ ht
    obtain ⟨_, hrb, _, _⟩ := hR.fields h
    rw [hR.checkParams h, hR.readSource h, hR.advance h, hrb]
    refine .bind _ fun _ => .bind _ fun v => .bind _ fun npc => ?_
    rw [hR.fitWord h]
    exact .bind _ fun r => .done (hR.setPc npc (hR.setRb r h))
  | hlt =>
    obtain rfl := Host.Outcome.next.inj ht
    exact ⟨_, rfl, hR.stop .halted h⟩

end

/-- `s'` is `s` but for its extent. -/
def SameButExt (s s' : State) : Prop := ∃ e, s' = { s with ext := e }

theorem indistinct_sameButExt : Indistinct SameButExt where
  fields := by rintro s _ ⟨e, rfl⟩; simp
  raise c := by rintro ⟨e, rfl⟩; exact ⟨e, rfl⟩
  stop st := by rintro ⟨e, rfl⟩; exact ⟨e, rfl⟩
  memWrite a v := by rintro ⟨e, rfl⟩; exact ⟨max e (a + 1), rfl⟩
  setPc a := by rintro ⟨e, rfl⟩; exact ⟨e, rfl⟩
  setRb v := by rintro ⟨e, rfl⟩; exact ⟨e, rfl⟩
  emit v := by rintro ⟨e, rfl⟩; exact ⟨e, rfl⟩

/-- IN's answer and what it does with it do not depend on the extent. -/
theorem input_sameButExt (ad npc : Nat) (s : State) (e : Nat) :
    SameButExt (input ad npc s) (input ad npc { s with ext := e }) := by
  have hport : portAnswer { s with ext := e } = portAnswer s := rfl
  have hafter : SameButExt s.afterRequest { s with ext := e }.afterRequest := by
    cases hans : s.answers <;> exact ⟨e, by simp [State.afterRequest, hans]⟩
  unfold input
  rw [hport]
  cases portAnswer s with
  | value v => exact indistinct_sameButExt.setPc npc (indistinct_sameButExt.memWrite ad v hafter)
  | wait => exact hafter
  | exhausted => exact indistinct_sameButExt.raise _ hafter
  | closed => exact indistinct_sameButExt.stop _ hafter

/-- Settles O43: the extent moves with a written cell, and agreeing on all but the extent is a relation that every
instruction keeps. -/
theorem extentOnlyGrowsAndOnlyFetchReadsIt : Obligations.ExtentOnlyGrowsAndOnlyFetchReadsIt := by
  refine ⟨fun s t h => ?_, fun i s t e h => ?_⟩
  · rcases step_mem_ext h with ⟨_, hext⟩ | ⟨i, hf, d, ad, v, hid, had, _, _, hext⟩
    · exact ⟨Nat.le_of_eq hext.symm, fun hne => absurd hext hne⟩
    · exact ⟨by omega, fun hne => ⟨i, d, ad, hf, instr_of_dest_eq_some hid, had, by omega⟩⟩
  · obtain ⟨_, ht', e', rfl⟩ := indistinct_sameButExt.exec (s := s) (s' := { s with ext := e }) ⟨e, rfl⟩
      (fun d ad npc _ => input_sameButExt ad npc s e) h
    exact ⟨_, ht', rfl⟩

/-- `s'` is `s` but for the answers to come, which are `as` and then the free ones from the `n`-th on. -/
def WithAnswers (as : List PortAnswer) (n : Nat) (s s' : State) : Prop := s' = { s with answers := as, draws := n }

theorem indistinct_withAnswers (as : List PortAnswer) (n : Nat) : Indistinct (WithAnswers as n) where
  fields := by rintro s _ rfl; simp
  raise c := by rintro rfl; rfl
  stop st := by rintro rfl; rfl
  memWrite a v := by rintro rfl; rfl
  setPc a := by rintro rfl; rfl
  setRb v := by rintro rfl; rfl
  emit v := by rintro rfl; rfl

/-- Settles O46: having other answers to come is a relation that every instruction but IN keeps. -/
theorem environmentMattersOnlyToIn : Obligations.EnvironmentMattersOnlyToIn := by
  intro s t as n hin h
  obtain ⟨hrun, ⟨he, rfl⟩ | ⟨he, c, hf, rfl⟩ | ⟨he, i, hf, hex⟩⟩ := step_cases h
  · exact step_of_extent hrun he
  · exact step_of_fetch_error (s := { s with answers := as, draws := n }) ⟨hrun, he⟩ hf
  · obtain ⟨_, ht', rfl⟩ := (indistinct_withAnswers as n).exec (s := s) rfl
      (fun d _ _ hi => absurd (hi ▸ hf) (hin d)) hex
    exact (step_of_fetch (s := { s with answers := as, draws := n }) ⟨hrun, he⟩ hf).trans ht'

end Sys2Proof.Machine
end

section
/-! PROOFS. The resolver (`20_memory.md` R39 to R43) and the ten instructions (`41_arithmetic.md` to
`45_relbase_halt.md`): each check's outcome, and with it each instruction's faults in order and its next state. -/

namespace Sys2Proof.Machine

open Sys2Proof.Spec

/-! ### The checks -/

theorem checkAddress_fits {s : State} {ea : Int} (h : 0 ≤ ea) (hb : s.wordBits.aboveMax ea = false) :
    checkAddress s ea = .ok ea.toNat :=
  checkAddress_eq_ok.mpr ⟨(Int.toNat_of_nonneg h).symm, by rwa [Int.toNat_of_nonneg h]⟩

theorem checkParams_fits {s : State} {n : Nat} (h : s.wordBits.aboveMax ((s.pc : Int) + n) = false) :
    checkParams s n = .ok () := checkParams_eq_ok.mpr h

theorem checkParams_overflow {s : State} {n : Nat} (h : s.wordBits.aboveMax ((s.pc : Int) + n) = true) :
    checkParams s n = .error .wordOverflow := if_pos h

theorem advance_fits {s : State} {len : Nat} (h : s.wordBits.aboveMax ((s.pc : Int) + len) = false) :
    advance s len = .ok (s.pc + len) := advance_eq_ok.mpr ⟨rfl, h⟩

theorem advance_overflow {s : State} {len : Nat} (h : s.wordBits.aboveMax ((s.pc : Int) + len) = true) :
    advance s len = .error .wordOverflow := if_pos h

theorem fitWord_fits {s : State} {v : Int} (h : s.wordBits.inWord v = true) : fitWord s v = .ok v := if_pos h

theorem fitWord_overflow {s : State} {v : Int} (h : s.wordBits.inWord v = false) :
    fitWord s v = .error .wordOverflow := by simp [fitWord, h]

/-! ### The resolver -/

/-- A source in mode 0 or 2 reads the Word at its effective address. -/
theorem readSource_of_ea {s : State} {a : Source} {x ea : Int}
    (h : a = .position x ∧ ea = x ∨ a = .relative x ∧ ea = s.rb + x) :
    readSource s a = (checkAddress s ea).map s.mem.read := by
  rcases h with ⟨rfl, rfl⟩ | ⟨rfl, rfl⟩ <;> rfl

/-- A destination designates its effective address. -/
theorem resolveDest_of_ea {s : State} {d : Dest} {x ea : Int}
    (h : d = .position x ∧ ea = x ∨ d = .relative x ∧ ea = s.rb + x) : resolveDest s d = checkAddress s ea := by
  rcases h with ⟨rfl, rfl⟩ | ⟨rfl, rfl⟩ <;> rfl

/-- Settles O18: by the check of the effective address, whose three answers are the three ranges. -/
theorem sourceParameterValue : Obligations.SourceParameterValue := by
  refine fun s x => ⟨rfl, fun a ea h => ?_⟩
  rw [readSource_of_ea h]
  refine ⟨fun hneg => ?_, fun hpos hbig => ?_, fun hpos hfits => ?_⟩
  · rw [checkAddress_negative hneg]; rfl
  · rw [checkAddress_tooBig hpos hbig]; rfl
  · rw [checkAddress_fits hpos hfits]; rfl

/-- Settles O19: by the check of the effective address, and the decoder's treatment of Immediate. -/
theorem destinationParameterAddress : Obligations.DestinationParameterAddress := by
  refine fun s x => ⟨fun d ea h => ?_, rfl⟩
  rw [resolveDest_of_ea h]
  exact ⟨checkAddress_negative, checkAddress_tooBig, checkAddress_fits⟩

/-- Settles O20: the decoder takes the Words after the first, and the first check of every instruction that has a
parameter is that their addresses exist. -/
theorem parameterWordsFollowTheInstructionWord : Obligations.ParameterWordsFollowTheInstructionWord := by
  refine ⟨fun s i hf => ?_, fun s i hpos hbig => ?_⟩
  · obtain ⟨op, w, hfields⟩ := decode_ok hf
    rw [decodeFields_params hfields]
    refine List.map_congr_left fun k hk => ?_
    have hlt := List.mem_range.mp hk
    have hle := paramCount_le i.opcode
    exact rawAt_fetchWords s (by omega)
  · have hcheck := checkParams_overflow hbig
    cases i with
    | add | mul | lt | eq =>
      simp only [Instr.opcode, Opcode.paramCount] at hcheck
      simp [exec, execAdd, execMul, execLt, execEq, storeResult, hcheck]
    | jt | jf =>
      simp only [Instr.opcode, Opcode.paramCount] at hcheck
      simp [exec, execJt, execJf, jumpWhen, hcheck]
    | inp | out | arb =>
      simp only [Instr.opcode, Opcode.paramCount] at hcheck
      simp [exec, execIn, execOut, execArb, hcheck]
    | hlt => simp [Instr.opcode, Opcode.paramCount] at hpos

/-! ### The shared shapes, fault by fault -/

section
variable {compute : Int → Int → Except FaultCause Int} {a b : Source} {d : Dest} {s : State} {c : FaultCause}
  {v0 v1 : Int} {ad : Nat}

theorem storeResult_of_params_overflow (hp : s.wordBits.aboveMax ((s.pc : Int) + 3) = true) :
    storeResult compute a b d s = .next (raise .wordOverflow s) := by
  have hcheck : checkParams s 3 = _ := checkParams_overflow hp
  simp [storeResult, hcheck]

theorem jumpWhen_of_params_overflow {taken : Int → Bool} (hp : s.wordBits.aboveMax ((s.pc : Int) + 2) = true) :
    jumpWhen taken a b s = .next (raise .wordOverflow s) := by
  have hcheck : checkParams s 2 = _ := checkParams_overflow hp
  simp [jumpWhen, hcheck]

section
variable (hp : s.wordBits.aboveMax ((s.pc : Int) + 3) = false)
include hp

theorem storeResult_of_source0_fault (h0 : readSource s a = .error c) :
    storeResult compute a b d s = .next (raise c s) := by
  have hcheck : checkParams s 3 = _ := checkParams_fits hp
  simp [storeResult, hcheck, h0]

theorem storeResult_of_source1_fault (h0 : readSource s a = .ok v0) (h1 : readSource s b = .error c) :
    storeResult compute a b d s = .next (raise c s) := by
  have hcheck : checkParams s 3 = _ := checkParams_fits hp
  simp [storeResult, hcheck, h0, h1]

theorem storeResult_of_dest_fault (h0 : readSource s a = .ok v0) (h1 : readSource s b = .ok v1)
    (hd : resolveDest s d = .error c) : storeResult compute a b d s = .next (raise c s) := by
  have hcheck : checkParams s 3 = _ := checkParams_fits hp
  simp [storeResult, hcheck, h0, h1, hd]

/-- Once the parameters are resolved, what is left are the advance and the result. -/
theorem storeResult_of_resolved (h0 : readSource s a = .ok v0) (h1 : readSource s b = .ok v1)
    (hd : resolveDest s d = .ok ad) :
    storeResult compute a b d s = settle s (do
      let npc ← advance s 4
      let r ← compute v0 v1
      return (s.memWrite ad r).setPc npc) := by
  have hcheck : checkParams s 3 = _ := checkParams_fits hp
  simp [storeResult, hcheck, h0, h1, hd]

end

section
variable {taken : Int → Bool} (hp : s.wordBits.aboveMax ((s.pc : Int) + 2) = false)
include hp

theorem jumpWhen_of_source0_fault (h0 : readSource s a = .error c) : jumpWhen taken a b s = .next (raise c s) := by
  have hcheck : checkParams s 2 = _ := checkParams_fits hp
  simp [jumpWhen, hcheck, h0]

theorem jumpWhen_of_source1_fault (h0 : readSource s a = .ok v0) (h1 : readSource s b = .error c) :
    jumpWhen taken a b s = .next (raise c s) := by
  have hcheck : checkParams s 2 = _ := checkParams_fits hp
  simp [jumpWhen, hcheck, h0, h1]

theorem jumpWhen_of_taken (h0 : readSource s a = .ok v0) (h1 : readSource s b = .ok v1) (ht : taken v0 = true) :
    jumpWhen taken a b s = if v1 < 0 then .next (raise .negativeAddress s) else .next (s.setPc v1.toNat) := by
  have hcheck : checkParams s 2 = _ := checkParams_fits hp
  by_cases hneg : v1 < 0 <;> simp [jumpWhen, hcheck, h0, h1, ht, hneg, pure, Except.pure]

theorem jumpWhen_of_not_taken (h0 : readSource s a = .ok v0) (h1 : readSource s b = .ok v1) (ht : taken v0 = false) :
    jumpWhen taken a b s = settle s (do
      let npc ← advance s 3
      return s.setPc npc) := by
  have hcheck : checkParams s 2 = _ := checkParams_fits hp
  simp [jumpWhen, hcheck, h0, h1, ht]

end

end

/-! ### ADD, MUL, LT, EQ -/

/-- An instruction of the shape `storeResult` whose result is `f` of its sources, checked or not. -/
theorem storesResult_of_shape {mk : Source → Source → Dest → Instr} {opc : Nat} {f : Int → Int → Int} {checked : Bool}
    {compute : State → Int → Int → Except FaultCause Int}
    (henc : ∀ a b d, encode (mk a b d) =
      [((opc + 100 * a.mode.digit + 1000 * b.mode.digit + 10000 * d.mode.digit : Nat) : Int), a.raw, b.raw, d.raw])
    (hexec : ∀ a b d s, exec (mk a b d) s = storeResult (compute s) a b d s)
    (hbad : ∀ s v0 v1, checked = true → s.wordBits.inWord (f v0 v1) = false →
      compute s v0 v1 = .error .wordOverflow)
    (hgood : ∀ s v0 v1, (checked = true → s.wordBits.inWord (f v0 v1) = true) → compute s v0 v1 = .ok (f v0 v1)) :
    StoresResult mk opc f checked := by
  intro a b d s
  rw [hexec]
  refine ⟨henc a b d, storeResult_of_params_overflow, fun hp => ⟨fun c => storeResult_of_source0_fault hp,
    fun v0 c => storeResult_of_source1_fault hp, fun v0 v1 c => storeResult_of_dest_fault hp, ?_⟩⟩
  intro v0 v1 ad h0 h1 hd
  rw [storeResult_of_resolved hp h0 h1 hd]
  refine ⟨fun hn => ?_, fun hn hc hw => ?_, fun hn hw => ?_⟩
  · have hadv : advance s 4 = _ := advance_overflow hn
    rw [hadv]; rfl
  · have hadv : advance s 4 = _ := advance_fits hn
    rw [hadv, ok_bind, hbad s v0 v1 hc hw]; rfl
  · have hadv : advance s 4 = _ := advance_fits hn
    rw [hadv, ok_bind, hgood s v0 v1 hw]; rfl

/-- Settles O23: ADD has the shared shape, its sum checked. -/
theorem addWritesTheSum : Obligations.AddWritesTheSum :=
  storesResult_of_shape (fun _ _ _ => rfl) (fun _ _ _ _ => rfl) (fun _ _ _ _ => fitWord_overflow)
    (fun _ _ _ h => fitWord_fits (h rfl))

/-- Settles O24: MUL has the shared shape, its product checked. -/
theorem mulWritesTheProduct : Obligations.MulWritesTheProduct :=
  storesResult_of_shape (fun _ _ _ => rfl) (fun _ _ _ _ => rfl) (fun _ _ _ _ => fitWord_overflow)
    (fun _ _ _ h => fitWord_fits (h rfl))

/-- Settles O25: LT has the shared shape, its result unchecked. -/
theorem ltWritesTheComparison : Obligations.LtWritesTheComparison :=
  storesResult_of_shape (compute := fun _ v0 v1 => .ok (lessThan v0 v1)) (fun _ _ _ => rfl) (fun _ _ _ _ => rfl)
    (fun _ _ _ h => absurd h (by decide)) (fun _ _ _ _ => rfl)

/-- Settles O26: EQ has the shared shape, its result unchecked. -/
theorem eqWritesTheComparison : Obligations.EqWritesTheComparison :=
  storesResult_of_shape (compute := fun _ v0 v1 => .ok (equals v0 v1)) (fun _ _ _ => rfl) (fun _ _ _ _ => rfl)
    (fun _ _ _ h => absurd h (by decide)) (fun _ _ _ _ => rfl)

/-! ### JT, JF -/

/-- An instruction of the shape `jumpWhen` with the condition `p`. -/
theorem jumps_of_shape {mk : Source → Source → Instr} {opc : Nat} {p : Int → Prop} {taken : Int → Bool}
    (henc : ∀ a b, encode (mk a b) = [((opc + 100 * a.mode.digit + 1000 * b.mode.digit : Nat) : Int), a.raw, b.raw])
    (hexec : ∀ a b s, exec (mk a b) s = jumpWhen taken a b s) (htaken : ∀ v, taken v = true ↔ p v) :
    Jumps mk opc p := by
  intro a b s
  rw [hexec]
  refine ⟨henc a b, jumpWhen_of_params_overflow, fun hp => ⟨fun c => jumpWhen_of_source0_fault hp,
    fun v0 c => jumpWhen_of_source1_fault hp, ?_⟩⟩
  intro v0 v1 h0 h1
  have hfalls : ¬ p v0 → jumpWhen taken a b s = settle s (advance s 3 >>= fun npc => pure (s.setPc npc)) := fun hnot =>
    jumpWhen_of_not_taken hp h0 h1 (by simpa using fun h => hnot ((htaken v0).mp h))
  refine ⟨fun ht hneg => ?_, fun ht hpos => ?_, fun hnot hn => ?_, fun hnot hn => ?_⟩
  · rw [jumpWhen_of_taken hp h0 h1 ((htaken v0).mpr ht), if_pos hneg]
  · rw [jumpWhen_of_taken hp h0 h1 ((htaken v0).mpr ht), if_neg (Int.not_lt.mpr hpos)]; rfl
  · have hadv : advance s 3 = _ := advance_overflow hn
    rw [hfalls hnot, hadv]; rfl
  · have hadv : advance s 3 = _ := advance_fits hn
    rw [hfalls hnot, hadv]; rfl

/-- Settles O30: JT has the shared shape of the jumps. -/
theorem jtJumpsOnNonzero : Obligations.JtJumpsOnNonzero :=
  jumps_of_shape (fun _ _ => rfl) (fun _ _ _ => rfl) (by simp [isNonzero])

/-- Settles O31: JF has the shared shape of the jumps. -/
theorem jfJumpsOnZero : Obligations.JfJumpsOnZero :=
  jumps_of_shape (fun _ _ => rfl) (fun _ _ _ => rfl) (by simp [isZero])

/-! ### IN, OUT, ARB -/

/-- Settles O27: the next scripted answer is delivered as it is where it carries a Word. -/
theorem requestTakesOneAnswer : Obligations.RequestTakesOneAnswer := by
  refine ⟨fun s ans rest hans => ⟨by simp [State.afterRequest, hans], fun hword => ?_⟩,
    fun s hans => by simp [State.afterRequest, hans], fun s v => portAnswer_word⟩
  have hdeliver : deliver s.wordBits ans = ans := by
    cases ans with
    | value v => exact if_pos (hword v rfl)
    | wait | exhausted | closed => rfl
  simp [portAnswer, hans, hdeliver]

/-- Settles O28: each check in order, then the port's answer. -/
theorem inTakesTheNextValue : Obligations.InTakesTheNextValue := by
  refine fun d s => ⟨rfl, fun hp => ?_, fun hp => ?_⟩
  · have hcheck : checkParams s 1 = _ := checkParams_overflow hp
    simp [exec, execIn, hcheck]
  · have hcheck : checkParams s 1 = _ := checkParams_fits hp
    refine ⟨fun c hd => by simp [exec, execIn, hcheck, hd], fun ad hd => ⟨fun hn => ?_, fun hn => ?_⟩⟩
    · have hadv : advance s 2 = _ := advance_overflow hn
      simp [exec, execIn, hcheck, hd, hadv]
    · have hadv : advance s 2 = _ := advance_fits hn
      have hin : exec (.inp d) s = .next (input ad (s.pc + 2) s) := by
        simp [exec, execIn, hcheck, hd, hadv, pure, Except.pure]
      rw [hin]
      refine ⟨fun v hport => ?_, fun hport => ?_, fun hport => ?_, fun hport => ?_⟩
      · simp [input, hport, State.memWrite, State.setPc]
      · simp [input, hport, hold]
      · simp [input, hport]
      · simp [input, hport, stop]

/-- Settles O29: each check in order, then the value. -/
theorem outEmitsTheValue : Obligations.OutEmitsTheValue := by
  refine fun a s => ⟨rfl, fun hp => ?_, fun hp => ?_⟩
  · have hcheck : checkParams s 1 = _ := checkParams_overflow hp
    simp [exec, execOut, hcheck]
  · have hcheck : checkParams s 1 = _ := checkParams_fits hp
    refine ⟨fun c h0 => by simp [exec, execOut, hcheck, h0], fun v h0 => ⟨fun hn => ?_, fun hn => ?_⟩⟩
    · have hadv : advance s 2 = _ := advance_overflow hn
      simp [exec, execOut, hcheck, h0, hadv]
    · have hadv : advance s 2 = _ := advance_fits hn
      simp [exec, execOut, hcheck, h0, hadv, pure, Except.pure, State.emit, State.setPc]

/-- Settles O32: each check in order, then the sum. -/
theorem arbAddsToTheRelativeBase : Obligations.ArbAddsToTheRelativeBase := by
  refine fun a s => ⟨rfl, fun hp => ?_, fun hp => ?_⟩
  · have hcheck : checkParams s 1 = _ := checkParams_overflow hp
    simp [exec, execArb, hcheck]
  · have hcheck : checkParams s 1 = _ := checkParams_fits hp
    refine ⟨fun c h0 => by simp [exec, execArb, hcheck, h0],
      fun v h0 => ⟨fun hn => ?_, fun hn hw => ?_, fun hn hw => ?_⟩⟩
    · have hadv : advance s 2 = _ := advance_overflow hn
      simp [exec, execArb, hcheck, h0, hadv]
    · have hadv : advance s 2 = _ := advance_fits hn
      simp [exec, execArb, hcheck, h0, hadv, fitWord_overflow hw]
    · have hadv : advance s 2 = _ := advance_fits hn
      simp [exec, execArb, hcheck, h0, hadv, fitWord_fits hw, pure, Except.pure, State.setRb, State.setPc]

/-! ### The first bad parameter -/

/-- A bad effective address is the check's fault. -/
theorem checkAddress_of_addressFault {s : State} {ea : Int} {c : FaultCause} (h : addressFault s ea = some c) :
    checkAddress s ea = .error c := by
  unfold addressFault at h
  split at h
  · next hneg => exact Option.some.inj h ▸ checkAddress_negative hneg
  · split at h
    · next hneg hbig => exact Option.some.inj h ▸ checkAddress_tooBig (Int.not_lt.mp hneg) hbig
    · simp at h

theorem checkAddress_of_no_fault {s : State} {ea : Int} (h : addressFault s ea = none) :
    checkAddress s ea = .ok ea.toNat := by
  unfold addressFault at h
  split at h
  · simp at h
  · split at h
    · simp at h
    · next hneg hfits => exact checkAddress_fits (Int.not_lt.mp hneg) (by simpa using hfits)

theorem readSource_of_paramFault {s : State} {a : Source} {c : FaultCause}
    (h : paramFault s (a.mode, a.raw) = some c) : readSource s a = .error c := by
  cases a with
  | position x | relative x => exact congrArg (Except.map s.mem.read) (checkAddress_of_addressFault h)
  | immediate x => simp [paramFault, Source.mode] at h

theorem readSource_of_no_fault {s : State} {a : Source} (h : paramFault s (a.mode, a.raw) = none) :
    ∃ v, readSource s a = .ok v := by
  cases a with
  | position x | relative x => exact ⟨_, congrArg (Except.map s.mem.read) (checkAddress_of_no_fault h)⟩
  | immediate x => exact ⟨x, rfl⟩

theorem resolveDest_of_paramFault {s : State} {d : Dest} {c : FaultCause}
    (h : paramFault s (d.mode, d.raw) = some c) : resolveDest s d = .error c := by
  cases d with
  | position x | relative x => exact checkAddress_of_addressFault h

theorem findSome?_cons_eq_some {α β : Type} {f : α → Option β} {x : α} {xs : List α} {y : β} :
    (x :: xs).findSome? f = some y ↔ f x = some y ∨ f x = none ∧ xs.findSome? f = some y := by
  cases h : f x <;> simp [h]

/-- ADD, MUL, LT and EQ look at their three parameters in order. -/
theorem storeResult_of_first_bad {compute : Int → Int → Except FaultCause Int} {a b : Source} {d : Dest} {s : State}
    {c : FaultCause} (hp : s.wordBits.aboveMax ((s.pc : Int) + 3) = false)
    (h : [(a.mode, a.raw), (b.mode, b.raw), (d.mode, d.raw)].findSome? (paramFault s) = some c) :
    storeResult compute a b d s = .next (raise c s) := by
  simp only [findSome?_cons_eq_some, List.findSome?_nil, reduceCtorEq, and_false, or_false] at h
  rcases h with h0 | ⟨h0, h1 | ⟨h1, hd⟩⟩
  · exact storeResult_of_source0_fault hp (readSource_of_paramFault h0)
  · obtain ⟨v0, hv0⟩ := readSource_of_no_fault h0
    exact storeResult_of_source1_fault hp hv0 (readSource_of_paramFault h1)
  · obtain ⟨v0, hv0⟩ := readSource_of_no_fault h0
    obtain ⟨v1, hv1⟩ := readSource_of_no_fault h1
    exact storeResult_of_dest_fault hp hv0 hv1 (resolveDest_of_paramFault hd)

/-- JT and JF look at both their parameters, in order. -/
theorem jumpWhen_of_first_bad {taken : Int → Bool} {a b : Source} {s : State} {c : FaultCause}
    (hp : s.wordBits.aboveMax ((s.pc : Int) + 2) = false)
    (h : [(a.mode, a.raw), (b.mode, b.raw)].findSome? (paramFault s) = some c) :
    jumpWhen taken a b s = .next (raise c s) := by
  simp only [findSome?_cons_eq_some, List.findSome?_nil, reduceCtorEq, and_false, or_false] at h
  rcases h with h0 | ⟨h0, h1⟩
  · exact jumpWhen_of_source0_fault hp (readSource_of_paramFault h0)
  · obtain ⟨v0, hv0⟩ := readSource_of_no_fault h0
    exact jumpWhen_of_source1_fault hp hv0 (readSource_of_paramFault h1)

/-- Settles O21: every instruction resolves its parameters in order before it does anything else. -/
theorem firstBadParameterDecidesTheFault : Obligations.FirstBadParameterDecidesTheFault := by
  intro s i c hp h
  cases i with
  | add a b d | mul a b d | lt a b d | eq a b d => exact storeResult_of_first_bad hp h
  | jt a b | jf a b => exact jumpWhen_of_first_bad hp h
  | out a =>
    obtain ⟨_, _, hfaults⟩ := outEmitsTheValue a s
    exact (hfaults hp).1 c (readSource_of_paramFault (by simpa [Instr.params] using h))
  | arb a =>
    obtain ⟨_, _, hfaults⟩ := arbAddsToTheRelativeBase a s
    exact (hfaults hp).1 c (readSource_of_paramFault (by simpa [Instr.params] using h))
  | inp d =>
    obtain ⟨_, _, hfaults⟩ := inTakesTheNextValue d s
    exact (hfaults hp).1 c (resolveDest_of_paramFault (by simpa [Instr.params] using h))
  | hlt => simp [Instr.params] at h

/-- An instruction is well-formed when its parameter words are Words. -/
theorem wellFormed_of_params {w : WordBits} {i : Instr} (h : ∀ p ∈ i.params, w.inWord p.2 = true) :
    i.wellFormed w = true := by
  cases i <;> simp_all [Instr.params, Instr.wellFormed, Source.wellFormed, Dest.wellFormed]

/-- Settles O22: the parameter words are read from memory, which holds Words. -/
theorem fetchedInstructionsAreWellFormed : Obligations.FetchedInstructionsAreWellFormed := by
  intro s i hinv hf
  refine wellFormed_of_params fun p hp => ?_
  obtain ⟨k, _, hk⟩ := fetch_param hf hp
  exact hk ▸ hinv.read_word _

end Sys2Proof.Machine
end

section
/-! PROOFS. Memory and reset (`20_memory.md` R33, R34, `10_state.md` R26), the range of a Word by its width, stores as
the next fetches see them (`20_memory.md` R47), and the placing of a table word. -/

namespace Sys2Proof.Machine

open Sys2Proof.Spec

/-! ### Memory -/

/-- Settles O15: by the law of memory. -/
theorem memWriteThenMemRead : Obligations.MemWriteThenMemRead :=
  fun _ a v h => ⟨write_wf h a v, read_write h a v, rfl, rfl⟩

/-- A canonical memory's first cell, and what reads below and above it. -/
theorem wfFrom_cons {lo k : Nat} {v : Int} {m : Memory} :
    Memory.wfFrom lo ((k, v) :: m) = true ↔ lo ≤ k ∧ v ≠ 0 ∧ m.wfFrom (k + 1) = true := by
  simp only [Memory.wfFrom, Bool.and_eq_true, decide_eq_true_eq, and_assoc]
  rfl

/-- Of two canonical memories that read alike, neither has a cell below the other's first. -/
theorem first_le_first {lo k k' : Nat} {v v' : Int} {m m' : Memory}
    (h : Memory.wfFrom lo ((k, v) :: m) = true) (h' : Memory.wfFrom lo ((k', v') :: m') = true)
    (heq : ∀ a, Memory.read ((k, v) :: m) a = Memory.read ((k', v') :: m') a) : k' ≤ k := by
  by_contra hlt
  obtain ⟨_, hv, _⟩ := wfFrom_cons.mp h
  obtain ⟨_, hv', hm'⟩ := wfFrom_cons.mp h'
  have hbelow : Memory.read ((k', v') :: m') k = 0 :=
    read_below (lo := k') (wfFrom_cons.mpr ⟨Nat.le_refl _, hv', hm'⟩) (Nat.not_le.mp hlt)
  exact hv (by rw [← hbelow, ← heq, read_cons, if_pos rfl])

/-- Canonical memories that read alike are one list: first cell by first cell. -/
theorem eq_of_read_eq {m m' : Memory} {lo : Nat} (h : m.wfFrom lo = true) (h' : m'.wfFrom lo = true)
    (heq : ∀ a, m.read a = m'.read a) : m = m' := by
  induction m generalizing m' lo with
  | nil =>
    cases m' with
    | nil => rfl
    | cons c' rest' =>
      obtain ⟨k', v'⟩ := c'
      obtain ⟨_, hv', _⟩ := wfFrom_cons.mp h'
      exact absurd ((heq k').symm.trans rfl) (by simpa [read_cons] using hv')
  | cons c rest ih =>
    obtain ⟨k, v⟩ := c
    obtain ⟨_, hv, hrest⟩ := wfFrom_cons.mp h
    cases m' with
    | nil => exact absurd (heq k) (by simpa [read_cons] using hv)
    | cons c' rest' =>
      obtain ⟨k', v'⟩ := c'
      obtain ⟨_, _, hrest'⟩ := wfFrom_cons.mp h'
      obtain rfl : k = k' := Nat.le_antisymm (first_le_first h' h fun a => (heq a).symm) (first_le_first h h' heq)
      obtain rfl : v = v' := by simpa [read_cons] using heq k
      refine congrArg _ (ih hrest hrest' fun a => ?_)
      rcases Nat.lt_or_ge k a with hlt | hge
      · have hne : k ≠ a := Nat.ne_of_lt hlt
        simpa [read_cons, hne] using heq a
      · rw [read_below hrest (by omega), read_below hrest' (by omega)]

/-- Settles O17: by induction on one of the two lists. -/
theorem canonicalMemoriesAreDetermined : Obligations.CanonicalMemoriesAreDetermined :=
  fun _ _ h h' => eq_of_read_eq h h'

/-! ### Reset and the width -/

/-- Settles O36: the image is loaded into an empty memory, and nothing else of the state before is kept. -/
theorem resetGivesTheResetValues : Obligations.ResetGivesTheResetValues := by
  refine fun s img _ => ⟨rfl, rfl, fun a v hv => ?_, fun a ha => read_resetWith_beyond _ _ _ ha,
    rfl, rfl, rfl, rfl, rfl, rfl, rfl⟩
  obtain ⟨hlt, hget⟩ := List.getElem?_eq_some_iff.mp hv
  have hload : (Memory.load [] 0 img).read a = v := by
    rw [read_load rfl, if_pos (by omega)]
    simp [hlt, hget]
  exact hload

/-- Settles O37: the extent of the empty image is 0. -/
theorem resetStateIsTheEmptyImage : Obligations.ResetStateIsTheEmptyImage :=
  ⟨rfl, step_of_extent rfl (Nat.le_refl 0)⟩

/-- 55 bits are the least that hold 2^53 on both sides. -/
theorem legal_iff_holds (n : Nat) :
    (WordBits.bits n).legal = true ↔
      (WordBits.bits n).inWord (2 ^ 53) = true ∧ (WordBits.bits n).inWord (-(2 ^ 53)) = true := by
  constructor
  · intro h
    exact ⟨inWord_small h (by decide) (by decide), inWord_small h (by decide) (by decide)⟩
  · rintro ⟨hhi, _⟩
    obtain ⟨_, hle⟩ := (inWord_bits n _).mp hhi
    by_contra hsmall
    have hn : n - 1 ≤ 53 := by simp only [WordBits.legal, decide_eq_true_eq] at hsmall; omega
    have hpow : 2 ^ (n - 1) ≤ 2 ^ 53 := Nat.pow_le_pow_right (by decide) hn
    omega

/-- Settles O52: the range is the two inequalities, and no step has the width among what it changes. -/
theorem wordRangeByWidth : Obligations.WordRangeByWidth :=
  ⟨inWord_bits, inWord_inf, legal_iff_holds, rfl, rfl, rfl, fun _ _ => step_wordBits⟩

/-! ### Holding -/

/-- A running core at an IN that passes its checks, with `ans` the next answer. -/
theorem run_waits {d : Dest} {ad : Nat} {ans : PortAnswer} {rest : List PortAnswer} (k : Nat) {s : State}
    (hs : Decodes s) (hf : fetch s = .ok (.inp d)) (hd : resolveDest s d = .ok ad)
    (hn : s.wordBits.aboveMax ((s.pc : Int) + 2) = false) (hans : s.answers = List.replicate k .wait ++ ans :: rest)
    (j : Nat) : core.run (k + j) s = core.run j { s with answers := ans :: rest } := by
  induction k generalizing s with
  | zero =>
    have hnext : s.answers = ans :: rest := hans
    have hsame : { s with answers := ans :: rest } = s := by rw [← hnext]
    rw [hsame, Nat.zero_add]
  | succ k ih =>
    have hp : s.wordBits.aboveMax ((s.pc : Int) + 1) = false := aboveMax_mono hn (by omega)
    have hans' : s.answers = .wait :: (List.replicate k .wait ++ ans :: rest) := hans
    have hstep : step s = .next { s with answers := List.replicate k .wait ++ ans :: rest } := by
      have hheld : Held s := ⟨hs.1, hs.2, by simp [portAnswer, hans', deliver], d, ad, s.pc + 2, hf,
        checkParams_eq_ok.mpr hp, hd, advance_eq_ok.mpr ⟨rfl, hn⟩⟩
      rw [step_of_held hheld]
      simp [State.afterRequest, hans']
    rw [Nat.add_right_comm, run_succ _ hstep]
    exact ih (s := { s with answers := List.replicate k .wait ++ ans :: rest }) hs hf hd hn rfl

/-- Settles O54: the waits by induction on their number, then the one answer by IN's own statement. -/
theorem holdLastsUntilAnAnswer : Obligations.HoldLastsUntilAnAnswer := by
  refine ⟨fun s d ad k ans rest hs hf hd hn hans => ?_, fun s => step_of_running⟩
  have hwaits := run_waits k hs hf hd hn hans
  refine ⟨hwaits 0, ?_⟩
  have hp : s.wordBits.aboveMax ((s.pc : Int) + 1) = false := aboveMax_mono hn (by omega)
  obtain ⟨_, _, hin⟩ := inTakesTheNextValue d { s with answers := ans :: rest }
  obtain ⟨hvalue, _, hexhausted, hclosed⟩ := ((hin hp).2 ad hd).2 hn
  obtain ⟨hafter, hport⟩ := requestTakesOneAnswer.1 { s with answers := ans :: rest } ans rest rfl
  have hlast : ∀ t, exec (.inp d) { s with answers := ans :: rest } = .next t → core.run (k + 1) s = .next t := by
    intro t ht
    rw [hwaits 1]
    exact run_succ 0 ((step_of_fetch (s := { s with answers := ans :: rest }) hs hf).trans ht)
  rw [hafter] at hvalue hexhausted hclosed
  refine ⟨fun v hv hw => ?_, fun he => ?_, fun hc => ?_⟩
  · subst hv
    exact hlast _ (hvalue v (hport fun u hu => PortAnswer.value.inj hu ▸ hw))
  · subst he
    exact hlast _ (hexhausted (hport nofun))
  · subst hc
    exact hlast _ (hclosed (hport nofun))

/-! ### A stored Word as the next fetches see it -/

/-- An instruction whose result is a Word, whose destination resolves and whose advance fits completes: it writes the
result and goes on to the next instruction. -/
theorem exec_of_stores {s : State} {i : Instr} {d : Dest} {ad : Nat} {v : Int} (hst : Stores s i d v)
    (hd : resolveDest s d = .ok ad) (hn : s.wordBits.aboveMax ((s.pc : Int) + i.length) = false) :
    ∃ t, exec i s = .next t ∧ t.status = s.status ∧ t.pc = s.pc + i.length ∧ t.mem = s.mem.write ad v ∧ ad < t.ext := by
  have hext : ad < max s.ext (ad + 1) := by omega
  rcases hst with ⟨a, b, v0, v1, h0, h1, hi⟩ | ⟨rfl, hport⟩
  · have hlen : i.length = 4 := by rcases hi with ⟨rfl, _⟩ | ⟨rfl, _⟩ | ⟨rfl, _⟩ | ⟨rfl, _⟩ <;> rfl
    rw [hlen] at hn ⊢
    have hp : s.wordBits.aboveMax ((s.pc : Int) + 3) = false := aboveMax_mono hn (by omega)
    rcases hi with ⟨rfl, rfl, hw⟩ | ⟨rfl, rfl, hw⟩ | ⟨rfl, rfl⟩ | ⟨rfl, rfl⟩
    · obtain ⟨_, _, h⟩ := addWritesTheSum a b d s
      obtain ⟨_, _, _, hdone⟩ := h hp
      exact ⟨_, (hdone v0 v1 ad h0 h1 hd).2.2 hn fun _ => hw, rfl, rfl, rfl, hext⟩
    · obtain ⟨_, _, h⟩ := mulWritesTheProduct a b d s
      obtain ⟨_, _, _, hdone⟩ := h hp
      exact ⟨_, (hdone v0 v1 ad h0 h1 hd).2.2 hn fun _ => hw, rfl, rfl, rfl, hext⟩
    · obtain ⟨_, _, h⟩ := ltWritesTheComparison a b d s
      obtain ⟨_, _, _, hdone⟩ := h hp
      exact ⟨_, (hdone v0 v1 ad h0 h1 hd).2.2 hn nofun, rfl, rfl, rfl, hext⟩
    · obtain ⟨_, _, h⟩ := eqWritesTheComparison a b d s
      obtain ⟨_, _, _, hdone⟩ := h hp
      exact ⟨_, (hdone v0 v1 ad h0 h1 hd).2.2 hn nofun, rfl, rfl, rfl, hext⟩
  · have hlen : (Instr.inp d).length = 2 := rfl
    rw [hlen] at hn ⊢
    have hp : s.wordBits.aboveMax ((s.pc : Int) + 1) = false := aboveMax_mono hn (by omega)
    obtain ⟨_, _, h⟩ := inTakesTheNextValue d s
    exact ⟨_, (((h hp).2 ad hd).2 hn).1 v hport, afterRequest_status s, rfl, rfl, hext⟩

/-- A cell keeps its Word through steps none of whose destinations it is. -/
theorem read_of_reachesKeeping {a : Nat} {s t : State} (h : ReachesKeeping a s t) : t.mem.read a = s.mem.read a := by
  induction h with
  | refl => rfl
  | tail _ hstep hkeep ih =>
    rw [← ih]
    by_contra hne
    obtain ⟨i, d, hf, hid, hd⟩ := step_changes_only_dest hstep hne
    exact hkeep i d hf hid hd

/-- Settles O53: the step completes, memory reads back what was written, and a fetch reads memory. -/
theorem storeIsSeenByTheNextFetch : Obligations.StoreIsSeenByTheNextFetch := by
  intro s i d ad v hwf hs hf hst hd hn
  obtain ⟨t, hex, hstatus, hpc, hmem, hext⟩ := exec_of_stores hst hd hn
  have hread : t.mem.read ad = v := by rw [hmem, read_write hwf, if_pos rfl]
  have hfetch : ∀ (u : State) (k : Nat), u.mem.read ad = v → k < 4 → ad = u.pc + k → (fetchWords u)[k]? = some v := by
    rintro u k hu hk rfl
    rw [fetchWords_getElem? u hk, hu]
  have hdecodes : ad = t.pc → Decodes t := fun had => ⟨hstatus.trans hs.1, had ▸ hext⟩
  have hfirst : ad = t.pc →
      fetch t = decode [v, t.mem.read (t.pc + 1), t.mem.read (t.pc + 2), t.mem.read (t.pc + 3)] := by
    intro had
    rw [fetch, fetchWords, ← had, hread]
  refine ⟨t, (step_of_fetch hs hf).trans hex, hstatus.trans hs.1, hpc, hread, fun k => hfetch t k hread,
    ?_, ?_, ?_, ?_⟩
  · intro had
    cases hdec : decode [v, t.mem.read (t.pc + 1), t.mem.read (t.pc + 2), t.mem.read (t.pc + 3)] with
    | error c => exact step_of_fetch_error (hdecodes had) ((hfirst had).trans hdec)
    | ok j => exact step_of_fetch (hdecodes had) ((hfirst had).trans hdec)
  · rintro had rfl
    exact step_of_fetch (hdecodes had) ((hfirst had).trans (decode_encode .hlt _))
  · rintro j k hj hk rfl
    rw [← List.getElem?_map, parameterWordsFollowTheInstructionWord.1 t j hj]
    simp [hk, hread]
  · intro u k hu
    exact hfetch u k ((read_of_reachesKeeping hu).trans hread)

/-! ### Placing a table word -/

@[simp] theorem placeWords_pc (s : State) (a : Nat) (ws : List Int) : (s.placeWords a ws).pc = s.pc := by
  induction ws generalizing s a with
  | nil => rfl
  | cons v rest ih => rw [State.placeWords, ih]; split <;> rfl

theorem le_placeWords_ext (s : State) (a : Nat) (ws : List Int) : s.ext ≤ (s.placeWords a ws).ext := by
  induction ws generalizing s a with
  | nil => exact Nat.le_refl _
  | cons v rest ih =>
    rw [State.placeWords]
    refine Nat.le_trans ?_ (ih _ (a + 1))
    split
    · exact Nat.le_refl _
    · exact Nat.le_max_left ..

/-- Words that all have an address are loaded. -/
theorem placeWords_mem {s : State} {a : Nat} {ws : List Int}
    (h : ∀ k < ws.length, s.wordBits.aboveMax ((a + k : Nat) : Int) = false) :
    (s.placeWords a ws).mem = s.mem.load a ws := by
  induction ws generalizing s a with
  | nil => rfl
  | cons v rest ih =>
    have hfirst : s.wordBits.aboveMax (a : Int) = false := h 0 (by simp)
    rw [State.placeWords, if_neg (by simp [hfirst])]
    refine ih fun k hk => ?_
    rw [Nat.add_right_comm]
    exact h (k + 1) (by simpa using hk)

/-- The first placed Word raises the extent beyond itself. -/
theorem lt_placeWords_ext {s : State} {a : Nat} {v : Int} {ws : List Int} (h : s.wordBits.aboveMax (a : Int) = false) :
    a < (s.placeWords a (v :: ws)).ext := by
  rw [State.placeWords, if_neg (by simp [h])]
  exact Nat.lt_of_lt_of_le (Nat.le_max_right s.ext (a + 1)) (le_placeWords_ext (s.memWrite a v) _ _)

/-- What is fetched from a state with a placed table word are the table's Words. -/
theorem fetchWords_withFetchWord {s : State} (nbits w : Nat) (hwf : s.mem.wf = true)
    (hfits : s.wordBits.aboveMax ((s.pc : Int) + 3) = false) :
    fetchWords (s.withFetchWord nbits w) = tableWords nbits w := by
  have hload : (s.withFetchWord nbits w).mem = s.mem.load s.pc (tableWords nbits w) :=
    placeWords_mem fun k hk => aboveMax_mono hfits (by simp [tableWords] at hk; omega)
  have hpc : (s.withFetchWord nbits w).pc = s.pc := placeWords_pc ..
  simp [fetchWords, hload, hpc, read_load hwf, tableWords]

/-- Settles O56: the placed Words are what is fetched, at a `pc` inside the extent. -/
theorem placedWordIsRunNext : Obligations.PlacedWordIsRunNext := by
  intro s nbits w i hwf hfits htable
  have hpc : (s.withFetchWord nbits w).pc = s.pc := placeWords_pc ..
  have hext : s.pc < (s.withFetchWord nbits w).ext := lt_placeWords_ext (aboveMax_mono hfits (by omega))
  refine step_of_fetch ⟨rfl, hpc ▸ hext⟩ ?_
  rw [fetch, fetchWords_withFetchWord nbits w hwf hfits]
  unfold decodeTableWord at htable
  cases hdec : decode (tableWords nbits w) with
  | error c => simp [hdec, Except.toOption] at htable
  | ok j => simpa [hdec, Except.toOption] using htable

end Sys2Proof.Machine
end

section
/-! PROOFS. The step is the table of R69 (`40_execution_loop.md`): the rows fall into those of the decode phase, whose
conditions are the decoder's, and one group for each check of the later phases, in the order in which the instructions
make their checks. -/

namespace Sys2Proof.Machine

open Sys2Proof.Spec

/-! ### The rows, phase by phase -/

/-- The row of the extent. -/
def extentRow (s : State) : Bool × State := (decide (s.ext ≤ s.pc), { s with status := .endOfStream })

/-- The row of the opcode. -/
def opcodeRow (s : State) : Bool × State :=
  let iw := s.mem.read s.pc
  (decide (iw < 0 ∨ iw % 100 ∉ opcodeNumbers), raise .illegalOpcode s)

/-- The row of the mode digit of parameter `k`. -/
def modeRow (s : State) (k : Nat) : Bool × State :=
  let iw := s.mem.read s.pc
  (decide (k < paramCount (iw % 100) ∧ 2 < modeDigit iw k), raise .badModeDigit s)

/-- The row of the reserved digits. -/
def reservedRow (s : State) : Bool × State :=
  let iw := s.mem.read s.pc
  (decide (iw / 10 ^ (2 + paramCount (iw % 100)) ≠ 0), raise .reservedModeDigit s)

/-- The row of the destination's mode. -/
def destRow (s : State) : Bool × State :=
  let iw := s.mem.read s.pc
  (decide (iw % 100 ∈ ([1, 2, 7, 8] : List Int) ∧ modeDigit iw 2 = 1 ∨ iw % 100 = 3 ∧ modeDigit iw 0 = 1),
    raise .immediateDestination s)

/-- The row of the parameter words (row 8). -/
def paramsRow (s : State) : Bool × State :=
  let n := paramCount (s.mem.read s.pc % 100)
  (decide (0 < n) && s.wordBits.aboveMax ((s.pc : Int) + n), raise .wordOverflow s)

/-- The rows of parameter `k` (rows 9 to 11). -/
def resolveRows (s : State) (k : Nat) : List (Bool × State) :=
  let iw := s.mem.read s.pc
  let inMemory := decide (k < paramCount (iw % 100) ∧ modeDigit iw k ≠ 1)
  [(inMemory && decide (ea s iw k < 0), raise .negativeAddress s),
   (inMemory && s.wordBits.aboveMax (ea s iw k), raise .wordOverflow s)]

/-- The row of the sequential advance. -/
def advanceRow (s : State) : Bool × State :=
  let iw := s.mem.read s.pc
  (fallsThrough s iw && s.wordBits.aboveMax ((s.pc : Int) + (1 + paramCount (iw % 100) : Nat)), raise .wordOverflow s)

/-- The row of a checked result. -/
def resultRow (s : State) : Bool × State :=
  let iw := s.mem.read s.pc
  (decide (iw % 100 ∈ ([1, 2, 9] : List Int)) && !s.wordBits.inWord (result s iw), raise .wordOverflow s)

/-- The row of a jump's target. -/
def targetRow (s : State) : Bool × State :=
  let iw := s.mem.read s.pc
  (jumpTaken s iw && decide (value s iw 1 < 0), raise .negativeAddress s)

/-- The rows of the port's answers. -/
def portRows (s : State) : List (Bool × State) :=
  let opc := s.mem.read s.pc % 100
  [(decide (opc = 3 ∧ portAnswer s = .wait), s.afterRequest),
   (decide (opc = 3 ∧ portAnswer s = .exhausted), raise .inputExhausted s.afterRequest),
   (decide (opc = 3 ∧ portAnswer s = .closed), { s.afterRequest with status := .inputClosed })]

/-- The row of HLT. -/
def haltRow (s : State) : Bool × State := (decide (s.mem.read s.pc % 100 = 99), { s with status := .halted })

/-- The rows after the decode phase, in the order of R69. -/
def laterRows (s : State) : List (Bool × State) :=
  [paramsRow s] ++ (resolveRows s 0 ++ (resolveRows s 1 ++ (resolveRows s 2 ++
    ([advanceRow s] ++ ([resultRow s] ++ ([targetRow s] ++ (portRows s ++ [haltRow s])))))))

/-- The table of R69 by its phases. -/
theorem detectionRows_eq (s : State) :
    detectionRows s = [extentRow s] ++ ([opcodeRow s] ++ ([modeRow s 0] ++ ([modeRow s 1] ++ ([modeRow s 2] ++
      ([reservedRow s] ++ ([destRow s] ++ laterRows s)))))) := rfl

theorem firstOutcome_append (last : State) (xs ys : List (Bool × State)) :
    firstOutcome last (xs ++ ys) = firstOutcome (firstOutcome last ys) xs := by
  induction xs with
  | nil => rfl
  | cons x rest ih =>
    obtain ⟨c, t⟩ := x
    simp only [List.cons_append, firstOutcome, ih]

/-- No row applies. -/
def Pass (rows : List (Bool × State)) : Prop := ∀ last, firstOutcome last rows = last

theorem Pass.append {rows : List (Bool × State)} (h : Pass rows) (last : State) (rest : List (Bool × State)) :
    firstOutcome last (rows ++ rest) = firstOutcome last rest := by
  rw [firstOutcome_append]
  exact h _

theorem pass_singleton {t : State} {c : Bool} (h : c = false) : Pass [(c, t)] := by
  intro last
  simp [firstOutcome, h]

/-- A row that applies decides. -/
theorem firstOutcome_hit {t : State} {c : Bool} (h : c = true) (last : State) (rest : List (Bool × State)) :
    firstOutcome last ([(c, t)] ++ rest) = t := by
  simp [firstOutcome, h]

/-! ### The decode phase -/

/-- A parameter has index 0, 1 or 2. -/
theorem spec_paramCount_le (opc : Int) : Spec.paramCount opc ≤ 3 := by
  unfold Spec.paramCount
  split
  · decide
  · split
    · decide
    · split <;> decide

theorem tableStep_of_extent {s : State} (h : s.ext ≤ s.pc) : tableStep s = stop .endOfStream s := by
  rw [tableStep, detectionRows_eq]
  exact firstOutcome_hit (by simp [h]) _ _

theorem pass_reservedRow {s : State} (h : reservedZero (s.mem.read s.pc)) : Pass [reservedRow s] :=
  pass_singleton (by simpa [reservedZero] using h)

section
variable {s : State} (he : s.pc < s.ext)
include he

theorem pass_extentRow : Pass [extentRow s] := pass_singleton (by simp [he])

theorem tableStep_of_illegalOpcode (h : ¬ selectsRow (s.mem.read s.pc)) : tableStep s = raise .illegalOpcode s := by
  have hcond : s.mem.read s.pc < 0 ∨ s.mem.read s.pc % 100 ∉ opcodeNumbers := by
    by_contra hno
    exact h ⟨by omega, by tauto⟩
  rw [tableStep, detectionRows_eq, (pass_extentRow he).append]
  exact firstOutcome_hit (by simp only [hcond, decide_true]) _ _

section
variable (hrow : selectsRow (s.mem.read s.pc))
include hrow

/-- At an opcode of the table the first two rows do not apply. -/
theorem tableStep_of_selectsRow :
    tableStep s = firstOutcome (committed s) ([modeRow s 0] ++ ([modeRow s 1] ++ ([modeRow s 2] ++
      ([reservedRow s] ++ ([destRow s] ++ laterRows s))))) := by
  have hcond : ¬ (s.mem.read s.pc < 0 ∨ s.mem.read s.pc % 100 ∉ opcodeNumbers) := by
    rintro (hneg | hmem)
    · exact absurd hrow.1 (Int.not_le.mpr hneg)
    · exact hmem hrow.2
  have hpass : Pass [opcodeRow s] := pass_singleton (by simp only [hcond, decide_false])
  rw [tableStep, detectionRows_eq, (pass_extentRow he).append, hpass.append]

theorem tableStep_of_badModeDigit (h : ¬ modesLegal (s.mem.read s.pc)) : tableStep s = raise .badModeDigit s := by
  simp only [modesLegal, not_forall, not_le] at h
  obtain ⟨k, hk, hbad⟩ := h
  have hle := spec_paramCount_le (s.mem.read s.pc % 100)
  rw [tableStep_of_selectsRow he hrow]
  obtain rfl | rfl | rfl : k = 0 ∨ k = 1 ∨ k = 2 := by omega
  all_goals simp [modeRow, firstOutcome, hk, hbad]

section
variable (hmodes : modesLegal (s.mem.read s.pc))
include hmodes

/-- With legal mode digits the three rows of the modes do not apply. -/
theorem tableStep_of_modesLegal :
    tableStep s = firstOutcome (committed s) ([reservedRow s] ++ ([destRow s] ++ laterRows s)) := by
  have hpass : ∀ k, Pass [modeRow s k] := fun k => pass_singleton (by simpa using hmodes k)
  rw [tableStep_of_selectsRow he hrow, (hpass 0).append, (hpass 1).append, (hpass 2).append]

theorem tableStep_of_reservedModeDigit (h : ¬ reservedZero (s.mem.read s.pc)) :
    tableStep s = raise .reservedModeDigit s := by
  rw [tableStep_of_modesLegal he hrow hmodes]
  exact firstOutcome_hit (by simpa [reservedZero] using h) _ _

section
variable (hres : reservedZero (s.mem.read s.pc))
include hres

theorem tableStep_of_immediateDestination (h : immediateDest (s.mem.read s.pc)) :
    tableStep s = raise .immediateDestination s := by
  unfold immediateDest at h
  rw [tableStep_of_modesLegal he hrow hmodes, (pass_reservedRow hres).append]
  exact firstOutcome_hit (by simp only [h, decide_true]) _ _

/-- At a word that decodes only the rows after the decode phase are left. -/
theorem tableStep_of_decoded (h : ¬ immediateDest (s.mem.read s.pc)) :
    tableStep s = firstOutcome (committed s) (laterRows s) := by
  have hpass : Pass [destRow s] := pass_singleton (decide_eq_false h)
  rw [tableStep_of_modesLegal he hrow hmodes, (pass_reservedRow hres).append, hpass.append]

end

end

end

end

/-! ### Checks and their rows -/

/-- The check `x` has the value `v` where no row applies, and else raises the fault of the first that does. -/
def Checks {α : Type} (s : State) (x : Except FaultCause α) (v : α) (rows : List (Bool × State)) : Prop :=
  x = .ok v ∧ Pass rows ∨ ∃ c, x = .error c ∧ ∀ last, firstOutcome last rows = raise c s

/-- A check, then the rest: its rows, then the rest's. -/
theorem Checks.bind {α : Type} {s last : State} {x : Except FaultCause α} {v : α} {f : α → Except FaultCause State}
    {rows rest : List (Bool × State)} (hx : Checks s x v rows)
    (hf : settle s (f v) = .next (firstOutcome last rest)) :
    settle s (x >>= f) = .next (firstOutcome last (rows ++ rest)) := by
  rcases hx with ⟨rfl, hpass⟩ | ⟨c, rfl, hrows⟩
  · rw [hpass.append]; exact hf
  · rw [firstOutcome_append, hrows]; rfl

theorem Checks.map {α β : Type} {s : State} {x : Except FaultCause α} {v : α} {rows : List (Bool × State)}
    (hx : Checks s x v rows) (g : α → β) : Checks s (x.map g) (g v) rows := by
  rcases hx with ⟨rfl, hpass⟩ | ⟨c, rfl, hrows⟩
  · exact .inl ⟨rfl, hpass⟩
  · exact .inr ⟨c, rfl, hrows⟩

/-- A check that fails with one cause, on one condition. -/
theorem checks_singleton {α : Type} {s : State} {x : Except FaultCause α} {v : α} {c : FaultCause} {b : Bool}
    (hgood : b = false → x = .ok v) (hbad : b = true → x = .error c) : Checks s x v [(b, raise c s)] := by
  cases b with
  | false => exact .inl ⟨hgood rfl, pass_singleton rfl⟩
  | true => exact .inr ⟨c, hbad rfl, fun _ => rfl⟩

/-- The check of an effective address has two rows, the sign first. -/
theorem checks_checkAddress (s : State) (e : Int) :
    Checks s (checkAddress s e) e.toNat
      [(decide (e < 0), raise .negativeAddress s), (s.wordBits.aboveMax e, raise .wordOverflow s)] := by
  by_cases hneg : e < 0
  · exact .inr ⟨_, checkAddress_negative hneg, fun last => by simp [firstOutcome, hneg]⟩
  · cases hbig : s.wordBits.aboveMax e with
    | true => exact .inr ⟨_, checkAddress_tooBig (Int.not_lt.mp hneg) hbig, fun last => by simp [firstOutcome, hneg]⟩
    | false => exact .inl ⟨checkAddress_fits (Int.not_lt.mp hneg) hbig, fun last => by simp [firstOutcome, hneg]⟩

/-! ### The later phases at a decoded word -/

/-- The rows of a parameter that the instruction does not have. -/
theorem pass_resolveRows {s : State} {k : Nat} (h : paramCount (s.mem.read s.pc % 100) ≤ k) :
    Pass (resolveRows s k) := by
  intro last
  simp [resolveRows, firstOutcome, Nat.not_lt.mpr h]

/-- The rows of a parameter in mode 0 or 2. -/
theorem resolveRows_of_inMemory {s : State} {k : Nat} (hk : k < paramCount (s.mem.read s.pc % 100))
    (h : modeDigit (s.mem.read s.pc) k ≠ 1) :
    resolveRows s k = [(decide (ea s (s.mem.read s.pc) k < 0), raise .negativeAddress s),
      (s.wordBits.aboveMax (ea s (s.mem.read s.pc) k), raise .wordOverflow s)] := by
  simp [resolveRows, hk, h]

section
variable {s : State} {w : Nat} (hw : s.mem.read s.pc = w)
include hw

/-- The check of source parameter `k`, and its value. -/
theorem checks_readSource {k : Nat} (hk : k < paramCount (s.mem.read s.pc % 100)) (hdigit : digit w (2 + k) ≤ 2) :
    Checks s (readSource s ((modeOf (digit w (2 + k))).source (raw s k))) (value s (s.mem.read s.pc) k)
      (resolveRows s k) := by
  have hmode : modeDigit (s.mem.read s.pc) k = (digit w (2 + k) : Int) := by rw [hw, modeDigit_natCast]
  obtain hd | hd | hd : digit w (2 + k) = 0 ∨ digit w (2 + k) = 1 ∨ digit w (2 + k) = 2 := by omega
  · have hea : ea s (s.mem.read s.pc) k = raw s k := by simp [ea, hmode, hd]
    have hval : value s (s.mem.read s.pc) k = s.mem.read (raw s k).toNat := by simp [value, hmode, hd, hea]
    rw [resolveRows_of_inMemory hk (by simp [hmode, hd]), hea, hval, hd]
    exact (checks_checkAddress s _).map _
  · have hval : value s (s.mem.read s.pc) k = raw s k := by simp [value, hmode, hd]
    rw [hval, hd]
    exact .inl ⟨rfl, fun last => by simp [resolveRows, firstOutcome, hmode, hd]⟩
  · have hea : ea s (s.mem.read s.pc) k = s.rb + raw s k := by simp [ea, hmode, hd]
    have hval : value s (s.mem.read s.pc) k = s.mem.read (s.rb + raw s k).toNat := by simp [value, hmode, hd, hea]
    rw [resolveRows_of_inMemory hk (by simp [hmode, hd]), hea, hval, hd]
    exact (checks_checkAddress s _).map _

/-- The check of the destination, parameter `k`, and its address. -/
theorem checks_resolveDest {k : Nat} (hk : k < paramCount (s.mem.read s.pc % 100)) (hdigit : digit w (2 + k) ≤ 2)
    (himm : modeOf (digit w (2 + k)) ≠ .immediate) :
    Checks s (resolveDest s (destOf (modeOf (digit w (2 + k))) (raw s k))) (ea s (s.mem.read s.pc) k).toNat
      (resolveRows s k) := by
  have hmode : modeDigit (s.mem.read s.pc) k = (digit w (2 + k) : Int) := by rw [hw, modeDigit_natCast]
  have hne : digit w (2 + k) ≠ 1 := fun h => himm (modeOf_eq_immediate.mpr h)
  obtain hd | hd : digit w (2 + k) = 0 ∨ digit w (2 + k) = 2 := by omega
  · have hea : ea s (s.mem.read s.pc) k = raw s k := by simp [ea, hmode, hd]
    rw [resolveRows_of_inMemory hk (by simp [hmode, hd]), hea, hd]
    exact checks_checkAddress s _
  · have hea : ea s (s.mem.read s.pc) k = s.rb + raw s k := by simp [ea, hmode, hd]
    rw [resolveRows_of_inMemory hk (by simp [hmode, hd]), hea, hd]
    exact checks_checkAddress s _

end

section
variable {s : State} {n : Nat} (hn : paramCount (s.mem.read s.pc % 100) = n)
include hn

theorem checks_checkParams (hpos : 0 < n) : Checks s (checkParams s n) () [paramsRow s] := by
  have hrow : paramsRow s = (s.wordBits.aboveMax ((s.pc : Int) + n), raise .wordOverflow s) := by
    simp [paramsRow, hn, hpos]
  rw [hrow]
  exact checks_singleton checkParams_fits checkParams_overflow

theorem checks_advance (hfalls : fallsThrough s (s.mem.read s.pc) = true) :
    Checks s (advance s (1 + n)) (s.pc + (1 + n)) [advanceRow s] := by
  have hrow : advanceRow s = (s.wordBits.aboveMax ((s.pc : Int) + (1 + n : Nat)), raise .wordOverflow s) := by
    simp [advanceRow, hfalls, hn]
  rw [hrow]
  exact checks_singleton advance_fits advance_overflow

end

/-- The check of a result that an instruction checks. -/
theorem checks_fitWord {s : State} (h : s.mem.read s.pc % 100 ∈ ([1, 2, 9] : List Int)) :
    Checks s (fitWord s (result s (s.mem.read s.pc))) (result s (s.mem.read s.pc)) [resultRow s] := by
  have hrow : resultRow s = (!s.wordBits.inWord (result s (s.mem.read s.pc)), raise .wordOverflow s) := by
    simp only [resultRow, h, decide_true, Bool.true_and]
  rw [hrow]
  exact checks_singleton (fun hg => fitWord_fits (by simpa using hg)) (fun hb => fitWord_overflow (by simpa using hb))

/-- The result row of an instruction that checks none. -/
theorem pass_resultRow {s : State} (h : s.mem.read s.pc % 100 ∉ ([1, 2, 9] : List Int)) : Pass [resultRow s] :=
  pass_singleton (by simp only [h, decide_false, Bool.false_and])

theorem pass_targetRow {s : State} (h : jumpTaken s (s.mem.read s.pc) = false) : Pass [targetRow s] :=
  pass_singleton (by simp [h])

theorem pass_portRows {s : State} (h : s.mem.read s.pc % 100 ≠ 3) : Pass (portRows s) := by
  intro last
  simp [portRows, firstOutcome, h]

theorem pass_haltRow {s : State} (h : s.mem.read s.pc % 100 ≠ 99) : Pass [haltRow s] :=
  pass_singleton (by simp [h])

theorem pass_advanceRow {s : State} (h : fallsThrough s (s.mem.read s.pc) = false) : Pass [advanceRow s] :=
  pass_singleton (by simp [h])

/-! ### The instructions by the rows -/

theorem jumpTaken_of_other {s : State} {iw : Int} (h5 : iw % 100 ≠ 5) (h6 : iw % 100 ≠ 6) : jumpTaken s iw = false := by
  simp [jumpTaken, h5, h6]

theorem fallsThrough_of_not_taken {s : State} {iw : Int} (h99 : iw % 100 ≠ 99) (h : jumpTaken s iw = false) :
    fallsThrough s iw = true := by
  simp [fallsThrough, h99, h]

section
variable {s : State} {w : Nat} (hw : s.mem.read s.pc = w)
  (hdigits : ∀ k < paramCount (s.mem.read s.pc % 100), digit w (2 + k) ≤ 2)
include hw hdigits

/-- ADD, MUL, LT and EQ make their checks in the order of the rows, and commit what R70 says. -/
theorem storeResult_eq_rows {compute : Int → Int → Except FaultCause Int}
    (hopc : s.mem.read s.pc % 100 ∈ ([1, 2, 7, 8] : List Int)) (himm : modeOf (digit w (2 + 2)) ≠ .immediate)
    (hcompute : Checks s (compute (value s (s.mem.read s.pc) 0) (value s (s.mem.read s.pc) 1))
      (result s (s.mem.read s.pc)) [resultRow s]) :
    storeResult compute ((modeOf (digit w (2 + 0))).source (raw s 0)) ((modeOf (digit w (2 + 1))).source (raw s 1))
      (destOf (modeOf (digit w (2 + 2))) (raw s 2)) s = .next (firstOutcome (committed s) (laterRows s)) := by
  have hn : paramCount (s.mem.read s.pc % 100) = 3 := if_pos hopc
  obtain ⟨h3, h5, h6, h99⟩ : s.mem.read s.pc % 100 ≠ 3 ∧ s.mem.read s.pc % 100 ≠ 5 ∧ s.mem.read s.pc % 100 ≠ 6 ∧
      s.mem.read s.pc % 100 ≠ 99 := by
    simp only [List.mem_cons, List.not_mem_nil, or_false] at hopc
    omega
  have hjump := jumpTaken_of_other (s := s) h5 h6
  refine (checks_checkParams hn (by decide)).bind ?_
  refine (checks_readSource hw (by omega) (hdigits 0 (by omega))).bind ?_
  refine (checks_readSource hw (by omega) (hdigits 1 (by omega))).bind ?_
  refine (checks_resolveDest hw (by omega) (hdigits 2 (by omega)) himm).bind ?_
  refine (checks_advance hn (fallsThrough_of_not_taken h99 hjump)).bind ?_
  refine hcompute.bind ?_
  rw [(pass_targetRow hjump).append, (pass_portRows h3).append, pass_haltRow h99, committed, if_pos hopc, hn]
  rfl

/-- JT and JF make their checks in the order of the rows: not taken, the advance's; taken, the target's. -/
theorem jumpWhen_eq_rows {taken : Int → Bool} (hopc : s.mem.read s.pc % 100 = 5 ∨ s.mem.read s.pc % 100 = 6)
    (htaken : taken (value s (s.mem.read s.pc) 0) = jumpTaken s (s.mem.read s.pc)) :
    jumpWhen taken ((modeOf (digit w (2 + 0))).source (raw s 0)) ((modeOf (digit w (2 + 1))).source (raw s 1)) s =
      .next (firstOutcome (committed s) (laterRows s)) := by
  have hn : paramCount (s.mem.read s.pc % 100) = 2 := by rcases hopc with h | h <;> rw [h] <;> decide
  have hresult : Pass [resultRow s] := pass_resultRow (by rcases hopc with h | h <;> rw [h] <;> decide)
  have hcommit : committed s = { s with
      pc := if jumpTaken s (s.mem.read s.pc) then (value s (s.mem.read s.pc) 1).toNat else s.pc + 3 } := by
    rcases hopc with h | h <;> simp [committed, h, Spec.paramCount]
  have h3 : s.mem.read s.pc % 100 ≠ 3 := by omega
  have h99 : s.mem.read s.pc % 100 ≠ 99 := by omega
  refine (checks_checkParams hn (by decide)).bind ?_
  refine (checks_readSource hw (by omega) (hdigits 0 (by omega))).bind ?_
  refine (checks_readSource hw (by omega) (hdigits 1 (by omega))).bind ?_
  rw [(pass_resolveRows (by omega)).append, htaken]
  cases hjump : jumpTaken s (s.mem.read s.pc) with
  | true =>
    rw [(pass_advanceRow (by simp [fallsThrough, hjump])).append, hresult.append, if_pos rfl]
    by_cases hneg : value s (s.mem.read s.pc) 1 < 0
    · rw [if_pos hneg, targetRow, firstOutcome_hit (by simp [hjump, hneg])]
      rfl
    · have htarget : Pass [targetRow s] := pass_singleton (by simp [hneg])
      rw [if_neg hneg, htarget.append, (pass_portRows h3).append, pass_haltRow h99, hcommit, hjump]
      rfl
  | false =>
    rw [if_neg (by decide)]
    refine (checks_advance hn (fallsThrough_of_not_taken h99 hjump)).bind ?_
    rw [hresult.append, (pass_targetRow hjump).append, (pass_portRows h3).append, pass_haltRow h99, hcommit, hjump]
    rfl

/-- OUT makes its checks in the order of the rows. -/
theorem execOut_eq_rows (hopc : s.mem.read s.pc % 100 = 4) :
    execOut ((modeOf (digit w (2 + 0))).source (raw s 0)) s = .next (firstOutcome (committed s) (laterRows s)) := by
  have hn : paramCount (s.mem.read s.pc % 100) = 1 := by rw [hopc]; decide
  have hjump := jumpTaken_of_other (s := s) (iw := s.mem.read s.pc) (by omega) (by omega)
  have hcommit : committed s = { s with outTrace := s.outTrace ++ [value s (s.mem.read s.pc) 0], pc := s.pc + 2 } := by
    simp [committed, hopc, Spec.paramCount]
  refine (checks_checkParams hn (by decide)).bind ?_
  refine (checks_readSource hw (by omega) (hdigits 0 (by omega))).bind ?_
  rw [(pass_resolveRows (by omega)).append, (pass_resolveRows (by omega)).append]
  refine (checks_advance hn (fallsThrough_of_not_taken (by omega) hjump)).bind ?_
  rw [(pass_resultRow (by rw [hopc]; decide)).append, (pass_targetRow hjump).append, (pass_portRows (by omega)).append,
    pass_haltRow (by omega), hcommit]
  rfl

/-- ARB makes its checks in the order of the rows. -/
theorem execArb_eq_rows (hopc : s.mem.read s.pc % 100 = 9) :
    execArb ((modeOf (digit w (2 + 0))).source (raw s 0)) s = .next (firstOutcome (committed s) (laterRows s)) := by
  have hn : paramCount (s.mem.read s.pc % 100) = 1 := by rw [hopc]; decide
  have hjump := jumpTaken_of_other (s := s) (iw := s.mem.read s.pc) (by omega) (by omega)
  have hresult : result s (s.mem.read s.pc) = s.rb + value s (s.mem.read s.pc) 0 := by simp [result, hopc]
  have hfit := checks_fitWord (s := s) (by rw [hopc]; decide)
  have hcommit : committed s = { s with rb := s.rb + value s (s.mem.read s.pc) 0, pc := s.pc + 2 } := by
    simp [committed, hopc, Spec.paramCount]
  rw [hresult] at hfit
  refine (checks_checkParams hn (by decide)).bind ?_
  refine (checks_readSource hw (by omega) (hdigits 0 (by omega))).bind ?_
  rw [(pass_resolveRows (by omega)).append, (pass_resolveRows (by omega)).append]
  refine (checks_advance hn (fallsThrough_of_not_taken (by omega) hjump)).bind ?_
  refine hfit.bind ?_
  rw [(pass_targetRow hjump).append, (pass_portRows (by omega)).append, pass_haltRow (by omega), hcommit]
  rfl

/-- IN makes its checks in the order of the rows, the port's answer last. -/
theorem execIn_eq_rows (hopc : s.mem.read s.pc % 100 = 3) (himm : modeOf (digit w (2 + 0)) ≠ .immediate) :
    execIn (destOf (modeOf (digit w (2 + 0))) (raw s 0)) s = .next (firstOutcome (committed s) (laterRows s)) := by
  have hn : paramCount (s.mem.read s.pc % 100) = 1 := by rw [hopc]; decide
  have hjump := jumpTaken_of_other (s := s) (iw := s.mem.read s.pc) (by omega) (by omega)
  refine (checks_checkParams hn (by decide)).bind ?_
  refine (checks_resolveDest hw (by omega) (hdigits 0 (by omega)) himm).bind ?_
  rw [(pass_resolveRows (by omega)).append, (pass_resolveRows (by omega)).append]
  refine (checks_advance hn (fallsThrough_of_not_taken (by omega) hjump)).bind ?_
  rw [(pass_resultRow (by rw [hopc]; decide)).append, (pass_targetRow hjump).append]
  change Host.Outcome.next (input (ea s (s.mem.read s.pc) 0).toNat (s.pc + 2) s) = _
  refine congrArg Host.Outcome.next ?_
  cases hport : portAnswer s with
  | value v =>
    simp [input, portRows, haltRow, firstOutcome, committed, hport, hopc, Spec.paramCount, State.memWrite, State.setPc]
  | wait => simp [input, portRows, firstOutcome, hport, hopc, hold]
  | exhausted => simp [input, portRows, firstOutcome, hport, hopc]
  | closed => simp [input, portRows, firstOutcome, hport, hopc, stop]

end

/-- HLT has no check: of the rows after the decode phase its own alone applies. -/
theorem execHlt_eq_rows {s : State} (hopc : s.mem.read s.pc % 100 = 99) :
    execHlt s = .next (firstOutcome (committed s) (laterRows s)) := by
  have hn : paramCount (s.mem.read s.pc % 100) = 0 := by rw [hopc]; decide
  have hparams : Pass [paramsRow s] := pass_singleton (by simp [hn])
  have hresolve : ∀ k, Pass (resolveRows s k) := fun k => pass_resolveRows (by omega)
  have hjump := jumpTaken_of_other (s := s) (iw := s.mem.read s.pc) (by omega) (by omega)
  rw [laterRows, hparams.append, (hresolve 0).append, (hresolve 1).append, (hresolve 2).append,
    (pass_advanceRow (by simp [fallsThrough, hopc])).append, (pass_resultRow (by rw [hopc]; decide)).append,
    (pass_targetRow hjump).append, (pass_portRows (by omega)).append]
  simp [haltRow, firstOutcome, hopc, execHlt, stop]

/-- What a core runs at a word that decodes is the first of the rows after the decode phase, else the commit. -/
theorem exec_eq_rows {s : State} {i : Instr} (hf : fetch s = .ok i) :
    exec i s = .next (firstOutcome (committed s) (laterRows s)) := by
  obtain ⟨w, op, hw, hnum, rfl, hdigits, _, himm⟩ := decode_ok_fields hf
  rw [← hw] at hnum
  rw [← paramCount_number, ← hnum] at hdigits
  cases op with
  | add =>
    refine storeResult_eq_rows hw hdigits (by rw [hnum]; decide) (himm 2 rfl) ?_
    have hresult : result s (s.mem.read s.pc) = _ := if_pos hnum
    exact hresult ▸ checks_fitWord (by rw [hnum]; decide)
  | mul =>
    refine storeResult_eq_rows hw hdigits (by rw [hnum]; decide) (himm 2 rfl) ?_
    have hresult : result s (s.mem.read s.pc) = value s (s.mem.read s.pc) 0 * value s (s.mem.read s.pc) 1 := by
      simp [result, hnum, Opcode.number]
    exact hresult ▸ checks_fitWord (by rw [hnum]; decide)
  | lt =>
    refine storeResult_eq_rows hw hdigits (by rw [hnum]; decide) (himm 2 rfl) (.inl ⟨?_, ?_⟩)
    · simp [result, hnum, Opcode.number, lessThan]
    · exact pass_resultRow (by rw [hnum]; decide)
  | eq =>
    refine storeResult_eq_rows hw hdigits (by rw [hnum]; decide) (himm 2 rfl) (.inl ⟨?_, ?_⟩)
    · simp [result, hnum, Opcode.number, equals]
    · exact pass_resultRow (by rw [hnum]; decide)
  | jt => exact jumpWhen_eq_rows hw hdigits (.inl hnum) (by simp [jumpTaken, hnum, Opcode.number, isNonzero])
  | jf => exact jumpWhen_eq_rows hw hdigits (.inr hnum) (by simp [jumpTaken, hnum, Opcode.number, isZero])
  | out => exact execOut_eq_rows hw hdigits hnum
  | arb => exact execArb_eq_rows hw hdigits hnum
  | inp => exact execIn_eq_rows hw hdigits hnum (himm 0 rfl)
  | hlt => exact execHlt_eq_rows hnum

/-- Settles O14: the decoder's five answers are the rows of the decode phase, and each instruction makes its checks in
the order of the rows after it. -/
theorem stepIsTheDetectionTable : Obligations.StepIsTheDetectionTable := by
  intro s hr
  by_cases he : s.pc < s.ext
  · have hs : Decodes s := ⟨hr, he⟩
    rcases decode_cases (s.mem.read s.pc) [s.mem.read (s.pc + 1), s.mem.read (s.pc + 2), s.mem.read (s.pc + 3)] with
      ⟨hrow, hf⟩ | ⟨hrow, hm, hf⟩ | ⟨hrow, hm, hres, hf⟩ | ⟨hrow, hm, hres, hi, hf⟩ |
      ⟨hrow, hm, hres, hi, _, _, _, _, hf⟩
    · rw [step_of_fetch_error hs hf, tableStep_of_illegalOpcode he hrow]
    · rw [step_of_fetch_error hs hf, tableStep_of_badModeDigit he hrow hm]
    · rw [step_of_fetch_error hs hf, tableStep_of_reservedModeDigit he hrow hm hres]
    · rw [step_of_fetch_error hs hf, tableStep_of_immediateDestination he hrow hm hres hi]
    · rw [step_of_fetch hs hf, tableStep_of_decoded he hrow hm hres hi, exec_eq_rows hf]
  · rw [step_of_extent hr (Nat.not_lt.mp he), tableStep_of_extent (Nat.not_lt.mp he)]

end Sys2Proof.Machine
end
